-- ==== Sys2Proof/Word.lean ====
section
/-! DEFINITION. The value types of the codec block: symbol codes, 7-bit indices, the 64-bit integer, the 16-bit header. -/

namespace Sys2Proof

/-- A symbol code (R5): a value that stands for one whole grapheme. The block only compares, stores, reads and emits codes and
never looks inside one, so a code is a plain number; that it is below `2 ^ SYM_W` is a well-formedness condition of whatever
holds it (R4, log entry 2). -/
abbrev SymCode := Nat

/-- A value in [0,128): an alphabet index, a seed or a digit (R3, `DIGIT_W` = 7). -/
abbrev Index7 := BitVec 7

/-- The unsigned integer operand and result (R3, `NUM_W` = 64). -/
abbrev Num64 := BitVec 64

/-- The seed field of a header, `SEED_IN_W` = 8 bits (R4, R60). -/
abbrev SeedField := BitVec 8

/-- The command header `CMD` (R52). -/
abbrev Header := BitVec 16

end Sys2Proof
end

