-- ==== Sys2Proof/Syntax.lean ====
section
/-! DEFINITION. The commands of the block: one constructor per row of the opcode table (R53), the command transaction (R50) and
the assembler's lines (R62). BUILD has no opcode (R53) and is no constructor. -/

namespace Sys2Proof

/-- The four commands of the opcode map (R53). What a header carries is its opcode and, for ENCS, the 8-bit field `SEED`; the
other operands (`NUM_IN`, `SLEN` and `SYM_IN`) arrive beside the header on the command port (R50, R54, R55). Every term is
well-formed: the field's type holds exactly the values a header can hold. -/
inductive Instr
  /-- ENCS: encode with seed (R100); any 8-bit `SEED` is presentable (R60). -/
  | encs (seed : SeedField)
  /-- ENC: encode with a drawn seed (R104). -/
  | enc
  /-- ENCALL: encode under every seed (R107). -/
  | encall
  /-- DEC: decode (R120). -/
  | dec
deriving DecidableEq, Repr

/-- A command transaction (R50): the header and the operand lines presented with it. A command samples only the operands its
opcode uses (V5). `SLEN` is the length of `symIn` (R55). -/
structure Command where
  /-- `CMD` (R52). -/
  header : Header
  /-- `NUM_IN` (R54). -/
  numIn : Num64
  /-- `SYM_IN[0..SLEN-1]` in string order (R55). -/
  symIn : List SymCode
deriving DecidableEq, Repr

/-- A string operand as the assembler writes it (R62, 00_scope section 6): a list of codes or the index form `[s; i1, ...]`. -/
inductive AsmString
  | codes (cs : List SymCode)
  | indexForm (s : Nat) (is : List Nat)
deriving DecidableEq, Repr

/-- One line of the assembler (R62). Literals are unbounded numbers; their ranges are checked in WellFormed. -/
inductive AsmLine
  | encs (num seed : Nat)
  | enc (num : Nat)
  | encall (num : Nat)
  | dec (str : AsmString)
deriving DecidableEq, Repr

end Sys2Proof
end

