-- ==== Sys2Proof/Decode.lean ====
section
/-! DEFINITION. The command header (R52, R53, R59): its fields, the decoder (total, rejecting by name) and the encoder. A header
is one 16-bit value at the port; the block has no byte order (R34). -/

namespace Sys2Proof

/-- `OP` = `CMD[15:12]` (R52). -/
def headerOp (w : Header) : BitVec 4 := w.extractLsb' 12 4
/-- `RSV` = `CMD[11:8]` (R52). -/
def headerRsv (w : Header) : BitVec 4 := w.extractLsb' 8 4
/-- `SEED` = `CMD[7:0]` (R52). -/
def headerSeed (w : Header) : SeedField := w.extractLsb' 0 8

/-- Why a header selects no command (R59). -/
inductive DecodeError
  /-- `OP` is 0x0 or in 0x5..0xF. -/
  | opcodeUnknown
  /-- `RSV` is not 0b0000. -/
  | reservedNotZero
  /-- `OP` is 0x2, 0x3 or 0x4 and `SEED` is not 0x00. -/
  | seedNotZero
deriving DecidableEq, Repr

/-- A command that takes no seed: its `SEED` field must be 0x00 (R52, R59). -/
def seedless (w : Header) (i : Instr) : Except DecodeError Instr :=
  if headerSeed w = 0#8 then .ok i else .error .seedNotZero

/-- Header decode (R53, R59): strict, and made before anything else about the command. -/
def decode (w : Header) : Except DecodeError Instr :=
  if headerRsv w = 0#4 then
    if headerOp w = 1#4 then .ok (.encs (headerSeed w))
    else if headerOp w = 2#4 then seedless w .enc
    else if headerOp w = 3#4 then seedless w .encall
    else if headerOp w = 4#4 then seedless w .dec
    else .error .opcodeUnknown
  else .error .reservedNotZero

/-- `OP` of each command (R53). -/
def opcodeOf : Instr → BitVec 4
  | .encs _ => 1#4
  | .enc => 2#4
  | .encall => 3#4
  | .dec => 4#4

/-- `SEED` of each command's header: the operand of ENCS, 0x00 in every other (R52). -/
def seedFieldOf : Instr → SeedField
  | .encs seed => seed
  | .enc => 0#8
  | .encall => 0#8
  | .dec => 0#8

/-- The header of a command: `OP`, then `RSV` = 0b0000, then `SEED` (R52, R53). -/
def encode (i : Instr) : Header := opcodeOf i ++ (0#4 ++ seedFieldOf i)

/-- What the decoder reads from an instruction whose bits are `w`: the low `nbits` bits, which must be a 16-bit header. -/
def decodeTableWord (nbits w : Nat) : Option Instr :=
  let v := w % 2 ^ nbits
  if v < 2 ^ 16 then
    match decode (BitVec.ofNat 16 v) with
    | .ok i => some i
    | .error _ => none
  else none

end Sys2Proof
end

