-- ==== Sys2Proof/Config.lean ====
section
/-! DEFINITION. What an implementation fixes (R3, R4) and the free values: the configuration `SYM_W`, `LEN_W`, `ALPHA` with its
check, the installed configuration, and the seed source. -/

namespace Sys2Proof

/-- `RADIX` (R3): the number base and the depth of the alphabet table. -/
abbrev Config.radix : Nat := 128
/-- `MAX_DIGITS` (R3): the most digits ENCS can emit. -/
abbrev Config.maxDigits : Nat := 10
/-- `MIN_LEN` (R3): the fewest symbols of an encoded string. -/
abbrev Config.minLen : Nat := 2
/-- `MAX_ENC_LEN` (R3): the most symbols ENCS can emit, the seed symbol included. -/
abbrev Config.maxEncLen : Nat := 11
/-- `N_SEEDS` (R3): the number of strings ENCALL returns. -/
abbrev Config.nSeeds : Nat := 128

/-- The open parameters of R4 as they come, before the check: `SYM_W`, `LEN_W` and the alphabet table, entry 0 first. -/
structure RawConfig where
  symW : Nat
  lenW : Nat
  alpha : List SymCode
deriving DecidableEq, Repr, Inhabited

/-- The constraints of R4, R10 and R94 on a configuration: `SYM_W >= 7`, `LEN_W >= 4`, exactly 128 entries (R93), every entry
a `SYM_W`-bit code, and the entries pairwise distinct. A table that fails one is no configuration of this hardware (U2, U6). -/
def RawConfig.wf (c : RawConfig) : Bool :=
  decide (7 ≤ c.symW) && decide (4 ≤ c.lenW) && decide (c.alpha.length = Config.radix)
    && c.alpha.all (fun a => decide (a < 2 ^ c.symW)) && decide c.alpha.Nodup

/-- The smallest configuration: it only shows that a well-formed one exists. -/
def RawConfig.smallest : RawConfig := { symW := 7, lenW := 4, alpha := List.range 128 }

theorem RawConfig.smallest_wf : RawConfig.smallest.wf = true := by decide +kernel

/-- A configuration together with the proof that it passed the check (R94: "A model takes `ALPHA` together with a proof ...").
The default values only show that the type is inhabited, which the opaque constant below needs. -/
structure Config where
  raw : RawConfig := RawConfig.smallest
  ok : raw.wf = true := by exact RawConfig.smallest_wf
deriving DecidableEq, Repr, Inhabited

/-- The check, made once when the configuration is built (R94): a malformed table is refused. -/
def Config.ofRaw? (c : RawConfig) : Option Config :=
  if h : c.wf = true then some { raw := c, ok := h } else none

theorem Config.alpha_length (c : Config) : c.raw.alpha.length = 128 := by
  have h := c.ok
  simp only [RawConfig.wf, Bool.and_eq_true, decide_eq_true_eq] at h
  exact h.1.1.2

theorem Config.alpha_nodup (c : Config) : c.raw.alpha.Nodup := by
  have h := c.ok
  simp only [RawConfig.wf, Bool.and_eq_true, decide_eq_true_eq] at h
  exact h.2

theorem Config.alpha_fits (c : Config) (a : SymCode) (h : a ∈ c.raw.alpha) : a < 2 ^ c.raw.symW := by
  have h' := c.ok
  simp only [RawConfig.wf, Bool.and_eq_true, decide_eq_true_eq, List.all_eq_true] at h'
  exact h'.1.2 a h

/-- The configuration the hardware was built with: a free value. No source gives the alphabet, `SYM_W` or `LEN_W` (R4, D2, D3,
D11), so nothing is known of it but that it is well-formed. DESIGN CHOICE, safe: log entry 1. -/
opaque Config.installed : Config

/-- The values the seed source shows on `SEED_SRC`, one after another: a draw under no law (R105, U3, D12). A free value.
DESIGN CHOICE, safe: log entry 3. -/
opaque Config.seedSource : Nat → Index7

end Sys2Proof
end

