-- ==== Sys2Proof/Machine/State.lean ====
section
/-! DEFINITION. The state of the codec block and its interface lines as plain data, the responses, the reasons a step can stop,
and the state after reset (10_state R10 to R20, 30_encoding R50 to R58). -/

namespace Sys2Proof.Machine

/-- The reverse map (R11): the codes that hold `found(i)`, each with its index. A code that is not listed holds `absent`. In
canonical form the codes strictly rise (log entry 11). -/
abbrev Rmap := List (SymCode × Index7)

/-- An error of the block (R140 to R144): a command ends early and its response carries it. None of them stops the block. -/
inductive CodecError
  /-- InvalidSeed (R140): raised by ENCS, no payload. -/
  | invalidSeed
  /-- TooShort (R141): raised by DEC, no payload. -/
  | tooShort
  /-- UnknownSymbol (R142): raised by DEC, carries the symbol that was not found. -/
  | unknownSymbol (esym : SymCode)
  /-- AccOverflow (R143): raised by DEC, no payload and no value (U1). -/
  | accOverflow
  /-- IllegalCmd (R144): raised by header decode, no payload. -/
  | illegalCmd
deriving DecidableEq, Repr

/-- A response (R56, R58), one case per outcome, so that a field without meaning cannot be read (V1). -/
inductive Response
  /-- OK of ENCS and ENC (one string) and of ENCALL (128 strings). -/
  | strings (out : List (List SymCode))
  /-- OK of DEC: `VALUE`. -/
  | value (v : Num64)
  /-- An error; no partial result (R58, R150). -/
  | error (e : CodecError)
deriving DecidableEq, Repr

/-- The names of the status codes (R57). Codes 6 to 15 are never produced and have no name (V4). -/
inductive Status
  | ok | invalidSeed | tooShort | unknownSymbol | accOverflow | illegalCmd
deriving DecidableEq, Repr

/-- What an agent outside the block does when it has the turn (log entry 6). -/
inductive HostAction
  /-- The host presents a command at the command port (R50). -/
  | present (c : Command)
  /-- The seed source shows another value on `SEED_SRC` (R105). -/
  | driveSeed (r : Index7)
  /-- The reset input is asserted (R170, R171). -/
  | assertReset
  /-- The reset input is released (R170). -/
  | releaseReset
  /-- Nothing happens outside: the turn is the block's. -/
  | wait
deriving DecidableEq, Repr

/-- The machine. `cfg`, `rmap` and `ready` are the block's persistent state (R10 to R12); the next five fields are the lines of
its interface; `responses` is what it has delivered; `draws` and `script` are the model's own (log entries 3 and 6). -/
structure State where
  /-- `ALPHA`, with `SYM_W` and `LEN_W`: read-only (R4, R10). -/
  cfg : Config
  /-- `RMAP` (R11). -/
  rmap : Rmap
  /-- `READY` (R12). -/
  ready : Bool
  /-- The reset input is asserted (R170). -/
  resetIn : Bool
  /-- A command is at the port and has had no response yet (R50, R51). -/
  cmdValid : Bool
  /-- The command lines (R50, R52, R54, R55). -/
  cmd : Command
  /-- The value now on the seed-source input (R105). -/
  seedSrc : Index7
  /-- How many values of the seed source have been shown: indexes `Config.seedSource`. -/
  draws : Nat
  /-- The responses delivered, oldest first (R50, R56). -/
  responses : List Response
  /-- What the agents outside the block do next, oldest first. -/
  script : List HostAction
deriving DecidableEq, Repr

/-- The faults a claim may have to exclude. No step of this machine ends in one: the block has no trap (R150). -/
inductive Fault
  /-- The decode overflow of U1 ("a model records a fault and claims no value"). Raised by no step: DEC answers the status
  ACC_OVERFLOW and the block goes on (R124, R150); `Response.fault?` of Safety.lean names such a response by this reason, so
  that a claim can leave out the runs that met it. Safe: no value is delivered (log entry 4). -/
  | accOverflow
deriving DecidableEq, Repr

/-- The refusals. No step of this machine ends in one: every header has its meaning. -/
inductive Refusal
  /-- Kept for an instruction without a meaning; raised by no arm, since all four commands have theirs. Safe. -/
  | notModelled (mnemonic : String)
deriving DecidableEq, Repr

/-- The machine right after reset is released, before BUILD (R20, R170): `RMAP` absent everywhere, `READY` = 0, `ALPHA` the
configured alphabet. The interface lines have no reset value in the spec: no command presented, zero operands (log entry 10),
and on `SEED_SRC` the first value of the seed source (log entry 3). -/
def State.reset : State where
  cfg := Config.installed
  rmap := []
  ready := false
  resetIn := false
  cmdValid := false
  cmd := { header := 0#16, numIn := 0#64, symIn := [] }
  seedSrc := Config.seedSource 0
  draws := 1
  responses := []
  script := []

end Sys2Proof.Machine
end

