-- ==== Sys2Proof/Machine/Ops.lean ====
section
/-! DEFINITION. The named operations over the two tables and over the interface: table access (R30 to R32), delivering a response
(R50), raising an error (R150), reset (R170, R171) and what the agents outside the block do to its lines. -/

namespace Sys2Proof.Machine

/-- `AlphaRead(i)` (R30): every 7-bit index is in range, so the read is total. -/
def alphaRead (cfg : Config) (i : Index7) : SymCode :=
  cfg.raw.alpha[i.toNat]'(by have h := i.isLt; have h' := cfg.alpha_length; omega)

/-- `RmapLookup(sym)` (R31): `found(i)` is `some i`, `absent` is `none`. The whole code is the key. -/
def rmapLookup : Rmap → SymCode → Option Index7
  | [], _ => none
  | (k, i) :: m, sym => if sym = k then some i else rmapLookup m sym

/-- `RmapWrite(sym, i)` (R32): sets `RMAP[sym] <- found(i)` and keeps the codes strictly rising. -/
def rmapWrite : Rmap → SymCode → Index7 → Rmap
  | [], sym, i => [(sym, i)]
  | (k, j) :: m, sym, i =>
    if sym < k then (sym, i) :: (k, j) :: m
    else if sym = k then (sym, i) :: m
    else (k, j) :: rmapWrite m sym i

/-- The canonical form of a reverse map: the codes strictly rise, so equal maps are equal data. -/
abbrev Rmap.wf (m : Rmap) : Prop := m.Pairwise (fun a b => a.1 < b.1)

/-- Deliver the one response to the command at the port (R50): the host gets it and the port is free for the next command. The
command lines keep what they show (log entry 21). -/
def State.respond (s : State) (r : Response) : State :=
  { s with responses := s.responses ++ [r], cmdValid := false }

/-- Raise an error (R150): the command stops, its response carries the error and nothing else, no persistent state changes and
the block waits for the next command exactly as after OK. There is no handler and no return (R151). -/
def State.raise (s : State) (e : CodecError) : State := s.respond (.error e)

/-- After ENC has sampled `SEED_SRC` (R105), the seed source shows a new value, of which nothing is known (U3: fresh for every
ENC command; log entry 3). -/
def State.afterDraw (s : State) : State :=
  { s with seedSrc := Config.seedSource s.draws, draws := s.draws + 1 }

/-- Reset asserted (R170 item 1, R20): `READY` = 0, `RMAP` absent everywhere, `ALPHA` untouched. A command being performed is
abandoned without a response (R171): with `READY` = 1 a command at the port has been accepted (R51), with `READY` = 0 it was
still held at the port (R172) and stays there. DEDUCED: log entry 8. -/
def State.applyReset (s : State) : State :=
  { s with rmap := [], ready := false, cmdValid := s.cmdValid && !s.ready }

/-- The host puts a command on the port (R50). -/
def State.presentCommand (s : State) (c : Command) : State := { s with cmd := c, cmdValid := true }

/-- What an action of an agent outside the block does to the lines (log entry 6). -/
def State.drive (s : State) : HostAction → State
  | .present c => s.presentCommand c
  | .driveSeed r => { s with seedSrc := r }
  | .assertReset => { s.applyReset with resetIn := true }
  | .releaseReset => { s with resetIn := false }
  | .wait => s

end Sys2Proof.Machine
end

