-- ==== Sys2Proof/Machine/Datapath.lean ====
section
/-! DEFINITION. The datapath units of 40_datapath.md: pure functions that the commands are built from (R70 to R78). -/

namespace Sys2Proof.Machine

/-- `sym_of(i)` (R70). -/
def symOf (cfg : Config) (i : Index7) : SymCode := alphaRead cfg i

/-- `index_of(sym)` (R71). -/
def indexOf (m : Rmap) (sym : SymCode) : Option Index7 := rmapLookup m sym

/-- `scr(d, seed) = (d + seed) mod 128` (R72). -/
def scr (d seed : Index7) : Index7 := BitVec.ofNat 7 ((d.toNat + seed.toNat) % 128)

/-- `unscr(idx, seed) = (idx - seed + 128) mod 128` (R73); 128 is added first, so that no intermediate is negative. -/
def unscr (idx seed : Index7) : Index7 := BitVec.ofNat 7 ((idx.toNat + 128 - seed.toNat) % 128)

/-- The digit loop of `digits128` (R74): `NUMR mod 128` goes in front of the digits already extracted, `NUMR` becomes
`NUMR div 128`, until `NUMR` is 0. Pushing to the front is the reversal to most significant first. `k` bounds the steps. -/
def digitLoop : Nat → Num64 → List Index7 → List Index7
  | 0, _, ds => ds
  | k + 1, numr, ds =>
    if numr = 0#64 then ds
    else digitLoop k (BitVec.ofNat 64 (numr.toNat / 128)) (BitVec.ofNat 7 (numr.toNat % 128) :: ds)

/-- `digits128(n)` (R74): the base-128 digits of `n`, most significant first; the sole digit of 0 is 0. A 64-bit value has at
most `MAX_DIGITS` digits. -/
def digits128 (n : Num64) : List Index7 :=
  if n = 0#64 then [0#7] else digitLoop Config.maxDigits n []

/-- `acc_step(acc, d)` (R75): the exact value `acc * 128 + d`, or overflow (`none`) where it does not fit 64 bits. -/
def accStep (acc : Num64) (d : Index7) : Option Num64 :=
  if acc.toNat * 128 + d.toNat < 2 ^ 64 then some (BitVec.ofNat 64 (acc.toNat * 128 + d.toNat)) else none

/-- `value(ds)` (R77), exact: used in statements, not by the hardware. -/
def digitsValue (ds : List Index7) : Nat := ds.foldl (fun acc d => acc * 128 + d.toNat) 0

end Sys2Proof.Machine
end

