-- ==== Sys2Proof/Machine/Operands.lean ====
section
/-! DEFINITION. The operands of the commands: `NUM_IN` (R54), `SLEN` and `SYM_IN` (R55), the seed operand of ENCS and its range
check (R60, R78), the seed drawn by ENC (R105), the loop seed of ENCALL (R107). -/

namespace Sys2Proof.Machine

/-- `NUM_IN` (R54). -/
def State.numIn (s : State) : Num64 := s.cmd.numIn

/-- `SYM_IN` (R55). -/
def State.symIn (s : State) : List SymCode := s.cmd.symIn

/-- `SLEN` (R55). -/
def State.slen (s : State) : Nat := s.cmd.symIn.length

/-- `seed_ok(SEED)` (R78): the unsigned compare of the whole 8-bit field with 128. -/
def seedOk (seed : SeedField) : Bool := decide (seed.toNat < 128)

/-- `SEED[6:0]` (R60): the 7-bit seed of a valid field. -/
def seedLow (seed : SeedField) : Index7 := seed.extractLsb' 0 7

/-- `zext_8` of a 7-bit seed (R104): the draw of ENC and the loop seed of ENCALL as the seed operand of ENCS. -/
def seedField (r : Index7) : SeedField := r.zeroExtend 8

/-- The index form `[s; i1, i2, ...]` (00_scope section 6): the codes at these indices of the alphabet. -/
def indexForm (cfg : Config) (s : Index7) (is : List Index7) : List SymCode :=
  alphaRead cfg s :: is.map (alphaRead cfg)

end Sys2Proof.Machine
end

