-- ==== Sys2Proof/Machine/Flags.lean ====
section
/-! DEFINITION. The block keeps no flags (R17); the outcome of a command is the status of its response. The status codes (R57)
and the response fields with the outcomes that give them meaning (R56, R58). A field without meaning has no value (V1). -/

namespace Sys2Proof.Machine

/-- The numbers of the status codes (R57). -/
def Status.code : Status → BitVec 4
  | .ok => 0#4
  | .invalidSeed => 1#4
  | .tooShort => 2#4
  | .unknownSymbol => 3#4
  | .accOverflow => 4#4
  | .illegalCmd => 5#4

/-- The status of an error (R140 to R144). -/
def CodecError.status : CodecError → Status
  | .invalidSeed => .invalidSeed
  | .tooShort => .tooShort
  | .unknownSymbol _ => .unknownSymbol
  | .accOverflow => .accOverflow
  | .illegalCmd => .illegalCmd

/-- `STATUS` by name (R56, R57). -/
def Response.status : Response → Status
  | .strings _ => .ok
  | .value _ => .ok
  | .error e => e.status

/-- The field `STATUS`, 4 bits (R56). -/
def Response.statusField (r : Response) : BitVec 4 := r.status.code

/-- `OCNT`, 8 bits (R56): meaningful for the encode commands with OK (R58). -/
def Response.ocnt? : Response → Option (BitVec 8)
  | .strings out => some (BitVec.ofNat 8 out.length)
  | .value _ => none
  | .error _ => none

/-- String `j` of the response (R56, R58). -/
def Response.string? : Response → Nat → Option (List SymCode)
  | .strings out, j => out[j]?
  | .value _, _ => none
  | .error _, _ => none

/-- `OLEN[j]`, 4 bits (R56): meaningful for `j < OCNT` (R58). -/
def Response.olen? (r : Response) (j : Nat) : Option (BitVec 4) :=
  (r.string? j).map (fun str => BitVec.ofNat 4 str.length)

/-- `OSYM[j][k]` (R56): meaningful for `j < OCNT` and `k < OLEN[j]` (R58). -/
def Response.osym? (r : Response) (j k : Nat) : Option SymCode := (r.string? j).bind (fun str => str[k]?)

/-- `VALUE` (R56): meaningful for DEC with OK (R58). -/
def Response.value? : Response → Option Num64
  | .strings _ => none
  | .value v => some v
  | .error _ => none

/-- `ESYM` (R56): meaningful for UNKNOWN_SYMBOL (R58). -/
def Response.esym? : Response → Option SymCode
  | .error (.unknownSymbol c) => some c
  | .error .invalidSeed => none
  | .error .tooShort => none
  | .error .accOverflow => none
  | .error .illegalCmd => none
  | .strings _ => none
  | .value _ => none

end Sys2Proof.Machine
end

