-- ==== Sys2Proof/Machine/Construct.lean ====
section
/-! DEFINITION. BUILD (41_construct.md R90 to R92): not a command, started by the release of reset. -/

namespace Sys2Proof.Machine

/-- The entry loop of BUILD over the indices `is`: `RmapWrite(ALPHA[i], i)` for each, in order (R90). -/
def buildEntries (cfg : Config) (m : Rmap) (is : List Nat) : Rmap :=
  is.foldl (fun m i => rmapWrite m (alphaRead cfg (BitVec.ofNat 7 i)) (BitVec.ofNat 7 i)) m

/-- BUILD (R90): the 128 pairs are inserted, ascending (V10, log entry 12), then `READY <- 1`. One indivisible step (R91). -/
def State.build (s : State) : State :=
  { s with rmap := buildEntries s.cfg s.rmap (List.range Config.radix), ready := true }

end Sys2Proof.Machine
end

