-- ==== Sys2Proof/Machine/EncodeCommands.lean ====
section
/-! DEFINITION. The encode commands (42_encode.md): ENCS (R100 to R102), ENC (R104, R105), ENCALL (R107). -/

namespace Sys2Proof.Machine

/-- The string of `num` under a 7-bit seed (R100 steps 1 to 4, R61): the seed symbol, then for each digit, most significant
first, the symbol of its scrambled index. -/
def encodeString (cfg : Config) (num : Num64) (seed : Index7) : List SymCode :=
  symOf cfg seed :: (digits128 num).map (fun d => symOf cfg (scr d seed))

/-- The response of ENCS to `num` and the 8-bit operand `SEED` (R100): InvalidSeed before anything else (R101), else one
string. -/
def encsResponse (cfg : Config) (num : Num64) (seed : SeedField) : Response :=
  if seedOk seed then .strings [encodeString cfg num (seedLow seed)] else .error .invalidSeed

/-- The 128 strings of ENCALL (R107): string `j` is the string of `ENCS(num, j)`, `j` ascending from 0. -/
def encodeAll (cfg : Config) (num : Num64) : List (List SymCode) :=
  (List.range Config.nSeeds).map (fun j => encodeString cfg num (BitVec.ofNat 7 j))

/-- ENCS (R100): encode `NUM_IN` with the seed operand of the header. -/
def execEncs (seed : SeedField) (s : State) : Host.Outcome State Fault Refusal :=
  .next (s.respond (encsResponse s.cfg s.numIn seed))

/-- ENC (R104): sample `SEED_SRC` once (R105) and do what ENCS does with that seed. -/
def execEnc (s : State) : Host.Outcome State Fault Refusal :=
  .next (s.afterDraw.respond (encsResponse s.cfg s.numIn (seedField s.seedSrc)))

/-- ENCALL (R107): one response with the strings of all 128 seeds. -/
def execEncall (s : State) : Host.Outcome State Fault Refusal :=
  .next (s.respond (.strings (encodeAll s.cfg s.numIn)))

end Sys2Proof.Machine
end

