-- ==== Sys2Proof/Machine/DecodeCommand.lean ====
section
/-! DEFINITION. The decode command DEC (43_decode.md R120 to R127). -/

namespace Sys2Proof.Machine

/-- The symbol loop of DEC (R120): each symbol is looked up (R123), unscrambled and accumulated (R124) before the next is
touched (90_conflicts C7); the first check that fails ends the loop (R125). -/
def decodeLoop (m : Rmap) (seed : Index7) : Num64 → List SymCode → Except CodecError Num64
  | acc, [] => .ok acc
  | acc, sym :: rest =>
    match indexOf m sym with
    | none => .error (.unknownSymbol sym)
    | some i =>
      match accStep acc (unscr i seed) with
      | none => .error .accOverflow
      | some t => decodeLoop m seed t rest

/-- `DEC(SLEN, SYM_IN)` (R120): TooShort on the count alone (R121), then the seed symbol (R122), then the loop. -/
def decodeString (m : Rmap) (str : List SymCode) : Except CodecError Num64 :=
  match str with
  | [] => .error .tooShort
  | [_] => .error .tooShort
  | seedSym :: digits =>
    match indexOf m seedSym with
    | none => .error (.unknownSymbol seedSym)
    | some seed => decodeLoop m seed 0#64 digits

/-- DEC (R120): the value, or the error that ended the decode, in the response. -/
def execDec (s : State) : Host.Outcome State Fault Refusal :=
  match decodeString s.rmap s.symIn with
  | .ok v => .next (s.respond (.value v))
  | .error e => .next (s.raise e)

end Sys2Proof.Machine
end

