-- ==== Sys2Proof/Machine/Dispatch.lean ====
section
/-! DEFINITION. The meaning of each command: one arm per constructor of Instr. -/

namespace Sys2Proof.Machine

/-- What performing an accepted command does. Acceptance (R51) is the sequencer's. -/
def exec (i : Instr) (s : State) : Host.Outcome State Fault Refusal :=
  match i with
  | .encs seed => Sys2Proof.Machine.execEncs seed s
  | .enc => Sys2Proof.Machine.execEnc s
  | .encall => Sys2Proof.Machine.execEncall s
  | .dec => Sys2Proof.Machine.execDec s

end Sys2Proof.Machine
end

