-- ==== Sys2Proof/Machine/Sequencer.lean ====
section
/-! DEFINITION. The operation sequencer (R1): reset, BUILD, acceptance of commands, header decode, and the turns of the agents
outside the block (R50, R51, R59, R91, R160, R170 to R172). -/

namespace Sys2Proof.Machine

/-- The command at the port, decoded and performed. An illegal header is answered ILLEGAL_CMD: no operand is sampled, no table
read, no state changed (R59). -/
def performCommand (s : State) : Host.Outcome State Fault Refusal :=
  match decode s.cmd.header with
  | .ok i => exec i s
  | .error _ => .next (s.raise .illegalCmd)

/-- One move of the block. While reset is asserted it accepts no command and produces no response (R170); with `READY` = 0 it
runs BUILD, and a command at the port is held (R51, R91, R172); with `READY` = 1 it performs the command at the port (R160);
with none there it waits and nothing changes (R157). -/
def codecMove (s : State) : Host.Outcome State Fault Refusal :=
  if s.resetIn = true then .next s.applyReset
  else if s.ready = false then .next s.build
  else if s.cmdValid = true then performCommand s
  else .next s

/-- One turn: the agent outside whose action is next, unless it leaves the turn to the block (log entry 6). The port takes the
next command only after the response to the one before (R50, R160): a host that would present one while the port is taken
waits with it, and the turn is the block's. -/
def turn (s : State) : Host.Outcome State Fault Refusal :=
  match s.script with
  | [] => codecMove s
  | .wait :: rest => codecMove { s with script := rest }
  | .present c :: rest => if s.cmdValid = true then codecMove s else .next ({ s with script := rest }.drive (.present c))
  | .driveSeed r :: rest => .next ({ s with script := rest }.drive (.driveSeed r))
  | .assertReset :: rest => .next ({ s with script := rest }.drive .assertReset)
  | .releaseReset :: rest => .next ({ s with script := rest }.drive .releaseReset)

/-- The machine with the header `w` (its low `nbits` bits) on the port and the block in service: reset released, the reverse
map built, the turn the block's. The operand lines keep what they show. -/
def loadHeader (s : State) (nbits w : Nat) : State :=
  { s with
    resetIn := false
    ready := true
    rmap := buildEntries s.cfg [] (List.range Config.radix)
    script := []
    cmdValid := true
    cmd := { s.cmd with header := BitVec.ofNat 16 (w % 2 ^ nbits) } }

end Sys2Proof.Machine
end

