-- ==== Sys2Proof/Machine/Step.lean ====
section
/-! DEFINITION. One step of the machine, and a command's bits placed where the next step takes its command from. -/

namespace Sys2Proof.Machine

/-- One step: one turn of an agent (R160, log entry 6). -/
def step (s : State) : Host.Outcome State Fault Refusal := turn s

/-- `s` with the instruction whose bits are `w` at the command port, so that the next step performs it. The block fetches
nothing (R16); a command is presented by the host, and from State.reset one step (BUILD) comes first (log entry 7). -/
def State.withFetchWord (s : State) (nbits w : Nat) : State := loadHeader s nbits w

end Sys2Proof.Machine
end

