-- ==== Sys2Proof/Machine/Assembler.lean ====
section
/-! DEFINITION. The assembler lines of R62: the command each stands for, and the text of a line and of a response. -/

namespace Sys2Proof.Machine

/-- The codes a string operand stands for: itself, or the entries of `ALPHA` at the indices (R62, 00_scope section 6). -/
def assembleString (cfg : Config) : AsmString → List SymCode
  | .codes cs => cs
  | .indexForm s is => indexForm cfg (BitVec.ofNat 7 s) (is.map (BitVec.ofNat 7))

/-- The command a line stands for (R62): the header of its mnemonic and its operands. An operand a command does not use is
not sampled (V5) and shows zero. -/
def assemble (cfg : Config) : AsmLine → Command
  | .encs num seed =>
    { header := encode (.encs (BitVec.ofNat 8 seed)), numIn := BitVec.ofNat 64 num, symIn := [] }
  | .enc num => { header := encode .enc, numIn := BitVec.ofNat 64 num, symIn := [] }
  | .encall num => { header := encode .encall, numIn := BitVec.ofNat 64 num, symIn := [] }
  | .dec str => { header := encode .dec, numIn := 0#64, symIn := assembleString cfg str }

/-- A symbol code as the assembler writes it: a hexadecimal literal. -/
def codeText (c : SymCode) : List Char := '0' :: 'x' :: (Nat.toDigits 16 c).map Char.toUpper

/-- A decimal literal. -/
def numText (n : Nat) : List Char := Nat.toDigits 10 n

/-- Words with a comma and a space between them. -/
def commaText : List (List Char) → List Char
  | [] => []
  | [w] => w
  | w :: v :: ws => w ++ [',', ' '] ++ commaText (v :: ws)

/-- A string of codes in angle brackets. -/
def stringText (cs : List SymCode) : List Char := ['<'] ++ commaText (cs.map codeText) ++ ['>']

/-- A string operand of a line: codes in angle brackets, or the index form (R62). -/
def asmStringText : AsmString → List Char
  | .codes cs => stringText cs
  | .indexForm s is => ['['] ++ numText s ++ [';', ' '] ++ commaText (is.map numText) ++ [']']

/-- The text of a line (R62), with decimal literals. -/
def asmText : AsmLine → List Char
  | .encs num seed => "ENCS ".toList ++ commaText [numText num, numText seed]
  | .enc num => "ENC ".toList ++ numText num
  | .encall num => "ENCALL ".toList ++ numText num
  | .dec str => "DEC ".toList ++ asmStringText str

/-- The name of a status as R57 writes it. -/
def statusText : Status → List Char
  | .ok => "OK".toList
  | .invalidSeed => "INVALID_SEED".toList
  | .tooShort => "TOO_SHORT".toList
  | .unknownSymbol => "UNKNOWN_SYMBOL".toList
  | .accOverflow => "ACC_OVERFLOW".toList
  | .illegalCmd => "ILLEGAL_CMD".toList

/-- What follows the status of a response (R62): the one string, the number of strings in braces (their characters are 123 and
125), the value, or the symbol that was not found. -/
def payloadText : Response → List Char
  | .strings [str] => ' ' :: stringText str
  | .strings out => [' ', Char.ofNat 123] ++ numText out.length ++ " strings".toList ++ [Char.ofNat 125]
  | .value v => ' ' :: numText v.toNat
  | .error (.unknownSymbol c) => ['('] ++ codeText c ++ [')']
  | .error .invalidSeed => []
  | .error .tooShort => []
  | .error .accOverflow => []
  | .error .illegalCmd => []

/-- The text of a response (R62). -/
def responseText (r : Response) : List Char := "-> ".toList ++ statusText r.status ++ payloadText r

end Sys2Proof.Machine
end

