-- ==== Sys2Proof/WellFormed.lean ====
section
/-! DEFINITION. What the command port can carry (R54, R55) and which literals the assembler accepts (R62). The check on a
configuration stands in Config.lean (`RawConfig.wf`), beside the type that carries it. `Instr` needs no check: its one field
has exactly the values a header can hold. -/

namespace Sys2Proof

/-- A string operand fits the port: every code has `SYM_W` bits and `SLEN` has `LEN_W` bits (R55). -/
def stringFits (cfg : Config) (cs : List SymCode) : Bool :=
  cs.all (fun c => decide (c < 2 ^ cfg.raw.symW)) && decide (cs.length < 2 ^ cfg.raw.lenW)

/-- A command can be presented at the port: any header and any `NUM_IN` can, and the string operand must fit (R54, R55). -/
def Command.wf (cfg : Config) (c : Command) : Bool := stringFits cfg c.symIn

/-- The operand string of a line: codes that fit, or indices in [0,128) (00_scope section 6) of a presentable length. -/
def AsmString.wf (cfg : Config) : AsmString → Bool
  | .codes cs => stringFits cfg cs
  | .indexForm s is =>
    decide (s < 128) && is.all (fun i => decide (i < 128)) && decide (is.length + 1 < 2 ^ cfg.raw.lenW)

/-- The ranges of R62: `<num>` in 0..2^64-1, `<seed>` in 0..255. -/
def AsmLine.wf (cfg : Config) : AsmLine → Bool
  | .encs num seed => decide (num < 2 ^ 64) && decide (seed < 256)
  | .enc num => decide (num < 2 ^ 64)
  | .encall num => decide (num < 2 ^ 64)
  | .dec str => str.wf cfg

end Sys2Proof
end

