-- ==== Sys2Proof/Safety.lean ====
section
/-! DEFINITION. What claims speak of: the reverse map of R11, responses within their widths, the invariant of the machine, the
encoded string of R61 written with ordinary arithmetic, the answer to a command alone, and the recorded fault of U1. -/

namespace Sys2Proof.Machine

/-- The two lines of R11: every alphabet entry is found at its index, and every other code is absent. -/
def MapBuilt (cfg : Config) (m : Rmap) : Prop :=
  (∀ i, rmapLookup m (alphaRead cfg i) = some i)
    ∧ ∀ sym, (∀ i, alphaRead cfg i ≠ sym) → rmapLookup m sym = none

/-- The base-128 digits of a number, most significant first, the sole digit of 0 being 0 (R61, R74), by Mathlib's digits. -/
def base128 (n : Nat) : List Nat := if n = 0 then [0] else (Nat.digits 128 n).reverse

/-- The encoded string of R61: `ALPHA[seed]`, then `ALPHA[(d + seed) mod 128]` for each digit `d`. -/
def encodedString (cfg : Config) (n : Nat) (seed : Index7) : List SymCode :=
  alphaRead cfg seed :: (base128 n).map (fun d => alphaRead cfg (BitVec.ofNat 7 ((d + seed.toNat) % 128)))

/-- A response within the widths of R56: 1 or 128 strings, each of 2 to 11 alphabet symbols; an `ESYM` of `SYM_W` bits that is
no alphabet symbol. -/
def Response.wf (cfg : Config) : Response → Prop
  | .strings out =>
    (out.length = 1 ∨ out.length = Config.nSeeds)
      ∧ ∀ str ∈ out, Config.minLen ≤ str.length ∧ str.length ≤ Config.maxEncLen ∧ ∀ c ∈ str, c ∈ cfg.raw.alpha
  | .value _ => True
  | .error (.unknownSymbol c) => c < 2 ^ cfg.raw.symW ∧ c ∉ cfg.raw.alpha
  | .error .invalidSeed => True
  | .error .tooShort => True
  | .error .accOverflow => True
  | .error .illegalCmd => True

/-- The invariant of the machine: the reverse map is in canonical form; it holds the two lines of R11 while `READY` = 1 (R11,
R12) and is empty while `READY` = 0 (R20); what the host presents or will present fits the port (R55); and every response
delivered is within its widths (R56). -/
structure CodecInv (s : State) : Prop where
  canonical : Rmap.wf s.rmap
  built : s.ready = true → MapBuilt s.cfg s.rmap
  empty : s.ready = false → s.rmap = []
  portFits : s.cmd.wf s.cfg = true
  scriptFits : ∀ c, HostAction.present c ∈ s.script → c.wf s.cfg = true
  responsesFit : ∀ r ∈ s.responses, r.wf s.cfg

/-- The block is in service and has the turn: reset released, `READY` = 1, a command at the port, nothing pending outside. -/
def Serving (s : State) : Prop :=
  s.script = [] ∧ s.resetIn = false ∧ s.ready = true ∧ s.cmdValid = true

/-- What the block answers to a command, as a function of the configuration, the command and, for ENC, the draw `r` alone
(R13, R127 item 4): no history enters. -/
def answer (cfg : Config) (c : Command) (r : Index7) : Response :=
  match decode c.header with
  | .error _ => .error .illegalCmd
  | .ok (.encs seed) => encsResponse cfg c.numIn seed
  | .ok .enc => encsResponse cfg c.numIn (seedField r)
  | .ok .encall => .strings (encodeAll cfg c.numIn)
  | .ok .dec =>
    match decodeString (buildEntries cfg [] (List.range Config.radix)) c.symIn with
    | .ok v => .value v
    | .error e => .error e

/-- The statuses each command can end in (R145). -/
def statusesOf : Instr → List Status
  | .encs _ => [.ok, .invalidSeed]
  | .enc => [.ok]
  | .encall => [.ok]
  | .dec => [.ok, .tooShort, .unknownSymbol, .accOverflow]

/-- The fault U1 asks a model to record: a response ACC_OVERFLOW, after which no claim may rely on a result (R124). -/
def Response.fault? : Response → Option Fault
  | .error .accOverflow => some .accOverflow
  | .error .invalidSeed => none
  | .error .tooShort => none
  | .error (.unknownSymbol _) => none
  | .error .illegalCmd => none
  | .strings _ => none
  | .value _ => none

/-- The faults recorded so far: a run the source vouches for has none (R178). -/
def State.recordedFaults (s : State) : List Fault := s.responses.filterMap Response.fault?

end Sys2Proof.Machine
end

