-- ==== Sys2Proof/Certificates/Slice0/Obligations.lean ====
section
/-! DEFINITION. The statements for the provers, from the numbered rules of spec/. A statement about what a command does gives the
whole next state, so its frame is in the equation: every field that is not named is unchanged. The model has no byte memory
(R33); its two tables are `cfg` and `rmap`. -/

open Sys2Proof Sys2Proof.Machine

/-! ### Headers -/

/-- R52, R53: every command's header decodes to that command, and a header decodes to a command only if it is that command's
header. No bit of a header is dropped. -/
def Obligations.DecodeAndEncodeAreInverse : Prop :=
  (∀ i, decode (encode i) = .ok i) ∧ ∀ w i, decode w = .ok i → encode i = w

/-- R53: a header selects a command when `CMD AND mask = match`, with the masks and matches of the table. -/
def Obligations.HeaderSelectsByMaskAndMatch : Prop :=
  ∀ w : Header,
    (∀ seed, decode w = .ok (.encs seed) ↔ w &&& 0xFF00#16 = 0x1000#16 ∧ seed = w.extractLsb' 0 8)
      ∧ (decode w = .ok .enc ↔ w &&& 0xFFFF#16 = 0x2000#16)
      ∧ (decode w = .ok .encall ↔ w &&& 0xFFFF#16 = 0x3000#16)
      ∧ (decode w = .ok .dec ↔ w &&& 0xFFFF#16 = 0x4000#16)

/-- Words written out from the table of R53 and from 95_test_vectors section 2.3. -/
def Obligations.SampleHeadersDecode : Prop :=
  decode 0x1064#16 = .ok (.encs 100#8) ∧ decode 0x10C8#16 = .ok (.encs 200#8) ∧ decode 0x2000#16 = .ok .enc
    ∧ decode 0x3000#16 = .ok .encall ∧ decode 0x4000#16 = .ok .dec ∧ decode 0x0000#16 = .error .opcodeUnknown
    ∧ decode 0x1100#16 = .error .reservedNotZero ∧ decode 0x4080#16 = .error .seedNotZero

/-- R59: which headers are illegal, and what the block does with one: the answer ILLEGAL_CMD, nothing else changed, and the
port free for the next command. -/
def Obligations.IllegalHeaderIsAnsweredIllegalCmd : Prop :=
  (∀ w : Header, (∃ e, decode w = .error e) ↔
      (w.extractLsb' 12 4 = 0#4 ∨ 5 ≤ (w.extractLsb' 12 4).toNat ∨ w.extractLsb' 8 4 ≠ 0#4
        ∨ (w.extractLsb' 12 4 ∈ [2#4, 3#4, 4#4] ∧ w.extractLsb' 0 8 ≠ 0#8)))
    ∧ ∀ s : State, Serving s → (∃ e, decode s.cmd.header = .error e) →
        step s = .next { s with responses := s.responses ++ [.error .illegalCmd], cmdValid := false }

/-- R62: the command each assembler line stands for, for literals in their ranges. -/
def Obligations.AssemblerLinesGiveTheirCommands : Prop :=
  ∀ cfg : Config,
    (∀ num seed, (AsmLine.encs num seed).wf cfg = true →
        (assemble cfg (.encs num seed)).header.toNat = 0x1000 + seed ∧ (assemble cfg (.encs num seed)).numIn.toNat = num)
      ∧ (∀ num, (AsmLine.enc num).wf cfg = true →
        (assemble cfg (.enc num)).header = 0x2000#16 ∧ (assemble cfg (.enc num)).numIn.toNat = num)
      ∧ (∀ num, (AsmLine.encall num).wf cfg = true →
        (assemble cfg (.encall num)).header = 0x3000#16 ∧ (assemble cfg (.encall num)).numIn.toNat = num)
      ∧ (∀ cs, (assemble cfg (.dec (.codes cs))).header = 0x4000#16 ∧ (assemble cfg (.dec (.codes cs))).symIn = cs)
      ∧ (∀ (s : Index7) (is : List Index7),
        (assemble cfg (.dec (.indexForm s.toNat (is.map BitVec.toNat)))).header = 0x4000#16
          ∧ (assemble cfg (.dec (.indexForm s.toNat (is.map BitVec.toNat)))).symIn
              = alphaRead cfg s :: is.map (alphaRead cfg))
      ∧ ∀ l : AsmLine, l.wf cfg = true → (assemble cfg l).wf cfg = true

/-! ### Datapath units -/

/-- R72: the scrambler is the exact sum modulo 128, which is the 7-bit sum with its carry dropped; its corner cases; and for a
fixed seed it is a bijection. -/
def Obligations.ScramblerAddsSeedModulo128 : Prop :=
  (∀ d seed : Index7, (scr d seed).toNat = (d.toNat + seed.toNat) % 128 ∧ scr d seed = d + seed
      ∧ d.toNat + seed.toNat ≤ 254)
    ∧ (∀ d, scr d 0#7 = d) ∧ (∀ seed, scr 0#7 seed = seed) ∧ scr 127#7 1#7 = 0#7 ∧ scr 127#7 127#7 = 126#7
    ∧ scr 96#7 100#7 = 68#7 ∧ ∀ seed, Function.Bijective (fun d => scr d seed)

/-- R73: the unscrambler is the exact difference plus 128 modulo 128, never negative, which is the 7-bit difference with its
borrow dropped; its corner cases; and both inverse laws. -/
def Obligations.UnscramblerInvertsScrambler : Prop :=
  (∀ idx seed : Index7, ((unscr idx seed).toNat : Int) = ((idx.toNat : Int) - seed.toNat + 128) % 128
      ∧ unscr idx seed = idx - seed
      ∧ 1 ≤ (idx.toNat : Int) - seed.toNat + 128 ∧ (idx.toNat : Int) - seed.toNat + 128 ≤ 255)
    ∧ (∀ idx, unscr idx 0#7 = idx) ∧ (∀ seed, unscr seed seed = 0#7) ∧ unscr 0#7 127#7 = 1#7 ∧ unscr 0#7 1#7 = 127#7
    ∧ unscr 68#7 100#7 = 96#7
    ∧ (∀ d seed, unscr (scr d seed) seed = d) ∧ ∀ idx seed, scr (unscr idx seed) seed = idx

/-- R78: the seed check is the unsigned compare of the whole 8-bit field with 128, that is, bit 7 is 0; the seeds of ENC and
ENCALL, 7-bit values, pass it. -/
def Obligations.SeedCheckReadsTheWholeField : Prop :=
  (∀ seed : SeedField, (seedOk seed = true ↔ seed.toNat < 128) ∧ (seedOk seed = true ↔ seed.getLsbD 7 = false))
    ∧ seedOk 127#8 = true ∧ seedOk 128#8 = false ∧ seedOk 200#8 = false ∧ seedOk 255#8 = false
    ∧ ∀ r : Index7, seedOk (seedField r) = true ∧ seedLow (seedField r) = r

/-- R74: the digits of a 64-bit integer: 1 to 10 of them, as many as the least `m` with `n < 128^m`, the first not 0, the sole
digit of 0 being 0, and their value is `n`. -/
def Obligations.DigitsAreMinimalAndExact : Prop :=
  (∀ n : Num64, digitsValue (digits128 n) = n.toNat ∧ 1 ≤ (digits128 n).length ∧ (digits128 n).length ≤ 10)
    ∧ (∀ n : Num64, n ≠ 0#64 → n.toNat < 128 ^ (digits128 n).length
        ∧ (∀ m, n.toNat < 128 ^ m → (digits128 n).length ≤ m) ∧ (digits128 n).head? ≠ some 0#7)
    ∧ digits128 0#64 = [0#7] ∧ digits128 12345#64 = [96#7, 57#7]

/-- R74, bit form: digit `j`, least significant first, is `n[7j+6 : 7j]`, digit 9 being `n[63]` widened with zeros. -/
def Obligations.DigitsAreBitFieldsOfTheNumber : Prop :=
  ∀ (n : Num64) (j : Nat), j < (digits128 n).length → (digits128 n).reverse[j]? = some (n.extractLsb' (7 * j) 7)

/-- R75: the accumulator step: overflow exactly when the exact value does not fit 64 bits, equivalently when one of the top
seven bits is set; else the value, which is the low 57 bits followed by the digit; and the rule's corner cases and example. -/
def Obligations.AccumulatorStepIsExactOrOverflows : Prop :=
  (∀ (acc : Num64) (d : Index7),
      (accStep acc d = none ↔ 2 ^ 64 ≤ acc.toNat * 128 + d.toNat)
        ∧ (accStep acc d = none ↔ acc.extractLsb' 57 7 ≠ 0#7)
        ∧ ∀ t, accStep acc d = some t → t.toNat = acc.toNat * 128 + d.toNat ∧ t = acc.extractLsb' 0 57 ++ d)
    ∧ accStep 0#64 0#7 = some 0#64 ∧ accStep 144115188075855871#64 127#7 = some 18446744073709551615#64
    ∧ accStep 144115188075855872#64 0#7 = none ∧ accStep 96#64 57#7 = some 12345#64

/-- R77: the value of a digit sequence: each digit weighs 128 to the number of digits after it, appending a digit multiplies by
128 and adds it, and leading zero digits do not change it. -/
def Obligations.DigitSequenceValueIsPositional : Prop :=
  digitsValue [] = 0
    ∧ (∀ d ds, digitsValue (d :: ds) = d.toNat * 128 ^ ds.length + digitsValue ds)
    ∧ (∀ ds d, digitsValue (ds ++ [d]) = digitsValue ds * 128 + d.toNat)
    ∧ ∀ k ds, digitsValue (List.replicate k 0#7 ++ ds) = digitsValue ds

/-! ### Configuration, tables, BUILD and reset -/

/-- R94, R4, R10: the check made once when a configuration is built takes exactly the tables of 128 pairwise distinct
`SYM_W`-bit codes with `SYM_W >= 7` and `LEN_W >= 4`; any other is refused. -/
def Obligations.OnlyWellFormedConfigurationsAreBuilt : Prop :=
  ∀ c : RawConfig,
    ((∃ cfg, Config.ofRaw? c = some cfg) ↔
        7 ≤ c.symW ∧ 4 ≤ c.lenW ∧ c.alpha.length = 128 ∧ (∀ a ∈ c.alpha, a < 2 ^ c.symW)
          ∧ ∀ i j : Nat, ∀ a, c.alpha[i]? = some a → c.alpha[j]? = some a → i = j)
      ∧ ∀ cfg, Config.ofRaw? c = some cfg → cfg.raw = c

/-- R10: the alphabet has exactly 128 entries, each a `SYM_W`-bit code, pairwise distinct, and no step writes it. -/
def Obligations.AlphabetIsDistinctAndReadOnly : Prop :=
  (∀ cfg : Config, cfg.raw.alpha.length = 128
      ∧ (∀ i : Index7, cfg.raw.alpha[i.toNat]? = some (alphaRead cfg i) ∧ alphaRead cfg i < 2 ^ cfg.raw.symW)
      ∧ ∀ i j, alphaRead cfg i = alphaRead cfg j → i = j)
    ∧ ∀ s t : State, step s = .next t → t.cfg = s.cfg

/-- From R90, R11 and R92: with reset released, `READY` = 0 and an empty reverse map, the next move of the block is BUILD, which
completes: the map holds the two lines of R11, `READY` is 1 and nothing else changes, whatever the script holds. The model's
own in it: the three ways the block has the turn (log entry 6), BUILD as a step of its own (log entry 7) and the last clause,
the canonical form of the map (log entry 11; R11 says only the lookup function is architectural). -/
def Obligations.BuildMakesTheReverseMap : Prop :=
  ∀ s : State, s.resetIn = false → s.ready = false → s.rmap = [] →
    ∃ m, (s.script = [] → step s = .next { s with rmap := m, ready := true })
      ∧ (∀ rest, s.script = .wait :: rest → step s = .next { s with rmap := m, ready := true, script := rest })
      ∧ (∀ c rest, s.script = .present c :: rest → s.cmdValid = true → step s = .next { s with rmap := m, ready := true })
      ∧ (∀ i, rmapLookup m (alphaRead s.cfg i) = some i)
      ∧ (∀ sym i, rmapLookup m sym = some i → alphaRead s.cfg i = sym)
      ∧ (∀ sym, (∀ i, alphaRead s.cfg i ≠ sym) → rmapLookup m sym = none)
      ∧ Rmap.wf m

/-- The model's own canonical form (log entry 11; R11 says only the lookup function is architectural): two reverse maps in
canonical form with equal lookups are equal data, so nothing but the function of R11 is held. -/
def Obligations.CanonicalMapsWithEqualLookupsAreEqual : Prop :=
  ∀ m m' : Rmap, Rmap.wf m → Rmap.wf m' → (∀ sym, rmapLookup m sym = rmapLookup m' sym) → m = m'

/-- R20: right after reset `RMAP` is absent for every code, `READY` is 0 and `ALPHA` is the configured alphabet; and after the
first step, BUILD, they are as R11 says. -/
def Obligations.ResetLeavesTheMapEmptyAndBuildFillsIt : Prop :=
  (∀ sym, rmapLookup State.reset.rmap sym = none) ∧ State.reset.ready = false ∧ State.reset.cfg = Config.installed
    ∧ ∃ t, step State.reset = .next t ∧ t.ready = true ∧ t.cfg = Config.installed ∧ MapBuilt t.cfg t.rmap

/-- R170: while reset is asserted the block accepts no command and produces no response; when it is released, `READY` = 0 and
`RMAP` is absent everywhere, and the next move is BUILD, after which `READY` = 1. The script shows one move of the block under
reset, then the release, then the block's move. -/
def Obligations.ResetSequenceRunsBuild : Prop :=
  ∀ s : State, s.resetIn = true →
    (∀ t, step s = .next t → t.responses = s.responses)
      ∧ (s.script = [.wait, .releaseReset] → ∃ t u v,
          step s = .next t ∧ step t = .next u ∧ step u = .next v
            ∧ u.resetIn = false ∧ u.ready = false ∧ (∀ sym, rmapLookup u.rmap sym = none) ∧ u.cfg = s.cfg
            ∧ v.ready = true ∧ MapBuilt v.cfg v.rmap ∧ v.cfg = s.cfg ∧ v.responses = s.responses)

/-- R171: asserting reset while a command is being performed abandons it without a response, and the block after reset and BUILD
is in the state it was in. (That a command at the port counts as being performed exactly when `READY` = 1 is the model's
reading, log entry 8.) -/
def Obligations.ResetAbandonsTheCommandAndRebuilds : Prop :=
  ∀ s : State, CodecInv s → s.ready = true → s.cmdValid = true → s.script = [.assertReset, .releaseReset] →
    ∃ t u v, step s = .next t ∧ step t = .next u ∧ step u = .next v
      ∧ v = { s with script := [], cmdValid := false, resetIn := false }

/-- R51, R172: a command is accepted only while `READY` = 1: no step answers one before. A command at the port while `READY` = 0
is neither performed nor refused: the block's own BUILD comes first, and the next step performs that same command. -/
def Obligations.CommandIsHeldUntilReady : Prop :=
  (∀ s t : State, step s = .next t → s.ready = false → t.responses = s.responses)
    ∧ ∀ s : State, s.script = [] → s.resetIn = false → s.ready = false → s.cmdValid = true →
        ∃ t, step s = .next t ∧ t.ready = true ∧ t.cmdValid = true ∧ t.cmd = s.cmd ∧ t.responses = s.responses
          ∧ t.seedSrc = s.seedSrc
          ∧ (∀ i, decode s.cmd.header = .ok i → step t = exec i t)
          ∧ ∀ e, decode s.cmd.header = .error e →
              step t = .next { t with responses := t.responses ++ [.error .illegalCmd], cmdValid := false }

/-- R12: `READY` is set by BUILD and cleared only by reset, and no command writes it. -/
def Obligations.ReadyIsSetByBuildAndClearedByReset : Prop :=
  (∀ s t : State, step s = .next t → s.ready = false → t.ready = true → s.resetIn = false ∧ t.rmap = s.build.rmap)
    ∧ (∀ s t : State, step s = .next t → s.ready = true → t.ready = false →
        s.resetIn = true ∨ ∃ rest, s.script = .assertReset :: rest)
    ∧ ∀ i (s t : State), exec i s = .next t → t.ready = s.ready

/-! ### The machine as a whole -/

/-- The invariant of the machine holds right after reset. -/
def Obligations.ResetStateMeetsTheInvariant : Prop := CodecInv State.reset

/-- R11, R12, R20, R55, R56: every step from a state that meets the invariant gives a state that meets it. -/
def Obligations.EveryStepKeepsTheInvariant : Prop :=
  ∀ s t : State, CodecInv s → step s = .next t → CodecInv t

/-- No state makes the machine stop: every step answers a next state. This is the model's reading. R148 and R150 say that the
block has no trap and goes on after an error; that therefore no step ends in a fault is log entry 20, and for a decode overflow,
which R124, R143 and U1 say a model treats as a fault, log entry 4 (it is recorded as one and does not stop the machine). -/
def Obligations.EveryStepAnswersANextState : Prop := ∀ s : State, ∃ t, step s = .next t

/-- A step runs the decoded command: with `READY` = 1, reset released and a command at the port whose header decodes to `i`, the
block's turn is `exec i`. The three clauses are the three ways the block has the turn (log entry 6). -/
def Obligations.StepRunsTheDecodedCommand : Prop :=
  ∀ (s : State) (i : Instr), s.resetIn = false → s.ready = true → s.cmdValid = true → decode s.cmd.header = .ok i →
    (s.script = [] → step s = exec i s)
      ∧ (∀ rest, s.script = .wait :: rest → step s = exec i { s with script := rest })
      ∧ ∀ c rest, s.script = .present c :: rest → step s = exec i s

/-- The model's environment (log entry 6; from R50, R105, R170): what each action of an agent outside the block does, and that
the block with nothing to do waits with nothing changed (R157). Presenting a command, driving `SEED_SRC` and releasing reset
change their own lines alone. Asserting reset also empties `RMAP` and clears `READY` (R170), and it abandons a command at the
port exactly when `READY` = 1, which is the model's reading of R171 and R172 (log entry 8). -/
def Obligations.OutsideActionsHaveTheirListedEffects : Prop :=
  ∀ (s : State) (rest : List HostAction),
    (∀ c, s.script = .present c :: rest → s.cmdValid = false →
        step s = .next { s with script := rest, cmd := c, cmdValid := true })
      ∧ (∀ r, s.script = .driveSeed r :: rest → step s = .next { s with script := rest, seedSrc := r })
      ∧ (s.script = .releaseReset :: rest → step s = .next { s with script := rest, resetIn := false })
      ∧ (s.script = .assertReset :: rest →
          step s = .next { s with script := rest, resetIn := true, rmap := [], ready := false
                                  cmdValid := s.cmdValid && !s.ready })
      ∧ (s.script = .wait :: rest → s.resetIn = false → s.ready = true → s.cmdValid = false →
          step s = .next { s with script := rest })
      ∧ (s.script = [] → s.resetIn = false → s.ready = true → s.cmdValid = false → step s = .next s)

/-- R13: no command changes `ALPHA`, `RMAP` or `READY`, whether it ends in OK or in an error; and once `READY` = 1 no step
does, but for reset. -/
def Obligations.CommandsLeavePersistentStateUnchanged : Prop :=
  (∀ i (s t : State), exec i s = .next t → t.cfg = s.cfg ∧ t.rmap = s.rmap ∧ t.ready = s.ready)
    ∧ ∀ s t : State, step s = .next t → s.ready = true → s.resetIn = false →
        (∀ rest, s.script ≠ .assertReset :: rest) → t.cfg = s.cfg ∧ t.rmap = s.rmap ∧ t.ready = s.ready

/-- R50, R145: every command delivers exactly one response, whose status is one of those its row of R145 lists, and the port is
free for the next command. -/
def Obligations.EveryCommandDeliversOneListedStatus : Prop :=
  ∀ i (s : State), ∃ t r, exec i s = .next t ∧ t.responses = s.responses ++ [r] ∧ r.status ∈ statusesOf i
    ∧ t.cmdValid = false ∧ t.cmd = s.cmd ∧ t.resetIn = s.resetIn ∧ t.script = s.script

/-- R150: a command that raises an error changes nothing but the responses and the port: the block is as after OK. -/
def Obligations.ErrorsLeaveNothingBehind : Prop :=
  ∀ i (s t : State) (e : CodecError), exec i s = .next t → t.responses = s.responses ++ [.error e] →
    t = { s with responses := s.responses ++ [.error e], cmdValid := false }

/-- R13, R127, R160: the response to a command does not depend on what came before it: in any two states of service with the
same alphabet, the same command and the same draw get the same response. -/
def Obligations.ResponseDoesNotDependOnHistory : Prop :=
  ∀ i (s s' t t' : State), CodecInv s → CodecInv s' → s.ready = true → s'.ready = true → s.cfg = s'.cfg → s.cmd = s'.cmd →
    s.seedSrc = s'.seedSrc → exec i s = .next t → exec i s' = .next t' →
    ∃ r, t.responses = s.responses ++ [r] ∧ t'.responses = s'.responses ++ [r]

/-- R54, R55, R105: an operand a command does not sample has no effect on its response: the string operand and the draw for
ENCS and ENCALL, the string operand for ENC, the integer and the draw for DEC. -/
def Obligations.UnsampledOperandsHaveNoEffect : Prop :=
  ∀ s : State,
    (∀ seed, ∃ r, ∀ str draw, ∃ t, t.responses = s.responses ++ [r]
        ∧ exec (.encs seed) { s with cmd := { s.cmd with symIn := str }, seedSrc := draw } = .next t)
      ∧ (∃ r, ∀ str, ∃ t, t.responses = s.responses ++ [r]
        ∧ exec .enc { s with cmd := { s.cmd with symIn := str } } = .next t)
      ∧ (∃ r, ∀ str draw, ∃ t, t.responses = s.responses ++ [r]
        ∧ exec .encall { s with cmd := { s.cmd with symIn := str }, seedSrc := draw } = .next t)
      ∧ ∃ r, ∀ num draw, ∃ t, t.responses = s.responses ++ [r]
        ∧ exec .dec { s with cmd := { s.cmd with numIn := num }, seedSrc := draw } = .next t

/-- R160: a waiting command is always served: with reset released and nothing pending outside, it has its one response after at
most two steps. -/
def Obligations.WaitingCommandIsServed : Prop :=
  ∀ s : State, s.script = [] → s.resetIn = false → s.cmdValid = true →
    ∃ k ≤ 2, ∃ (t : State) (r : Response), Host.Core.run Sys2Proof.core k s = .next t ∧ t.responses = s.responses ++ [r] ∧ t.cmdValid = false

/-- From R13 and R160: commands presented one after another are performed in that order, one response each, and each response is
the answer to that command alone under some draw; the block ends in service with its tables as they were. That a command takes
two steps, one turn to present it and one to perform it, is the model's division of a run into turns (log entry 6). -/
def Obligations.CommandsAreAnsweredInOrder : Prop :=
  ∀ (s : State) (cs : List Command), CodecInv s → s.ready = true → s.resetIn = false → s.cmdValid = false →
    s.script = cs.map HostAction.present →
    ∃ (t : State) (rs : List Index7), Host.Core.run Sys2Proof.core (2 * cs.length) s = .next t ∧ rs.length = cs.length
      ∧ t.responses = s.responses ++ List.zipWith (answer s.cfg) cs rs
      ∧ t.cfg = s.cfg ∧ t.rmap = s.rmap ∧ t.ready = true ∧ t.cmdValid = false ∧ t.script = []

/-! ### Responses -/

/-- R57: the numbers of the status codes, and no other code is produced. -/
def Obligations.StatusCodesAreZeroToFive : Prop :=
  (∀ out, (Response.strings out).statusField = 0#4) ∧ (∀ v, (Response.value v).statusField = 0#4)
    ∧ (Response.error .invalidSeed).statusField = 1#4 ∧ (Response.error .tooShort).statusField = 2#4
    ∧ (∀ c, (Response.error (.unknownSymbol c)).statusField = 3#4)
    ∧ (Response.error .accOverflow).statusField = 4#4 ∧ (Response.error .illegalCmd).statusField = 5#4
    ∧ ∀ r : Response, r.statusField.toNat ≤ 5

/-- R58: which fields of a response can be read, by outcome; an error carries no result, and `ESYM` stands only beside
UNKNOWN_SYMBOL. -/
def Obligations.ResponseFieldsAreReadableAsListed : Prop :=
  (∀ (out : List (List SymCode)) j k, (Response.strings out).ocnt? = some (BitVec.ofNat 8 out.length)
      ∧ (Response.strings out).olen? j = (out[j]?).map (fun str => BitVec.ofNat 4 str.length)
      ∧ (Response.strings out).osym? j k = (out[j]?).bind (fun str => str[k]?)
      ∧ (Response.strings out).value? = none ∧ (Response.strings out).esym? = none)
    ∧ (∀ v j k, (Response.value v).value? = some v ∧ (Response.value v).ocnt? = none ∧ (Response.value v).olen? j = none
      ∧ (Response.value v).osym? j k = none ∧ (Response.value v).esym? = none)
    ∧ ∀ e j k, (Response.error e).value? = none ∧ (Response.error e).ocnt? = none ∧ (Response.error e).olen? j = none
      ∧ (Response.error e).osym? j k = none ∧ ∀ c, (Response.error e).esym? = some c ↔ e = .unknownSymbol c

/-- R56: in every state that meets the invariant the counts of a delivered response fit their fields (`OCNT` 8 bits, `OLEN` 4
bits) and every symbol in it has `SYM_W` bits. -/
def Obligations.ResponseCountsFitTheirFields : Prop :=
  ∀ s : State, CodecInv s → ∀ r ∈ s.responses,
    (∀ out, r = .strings out → ∃ n, r.ocnt? = some n ∧ n.toNat = out.length)
      ∧ (∀ j str, r.string? j = some str → ∃ n, r.olen? j = some n ∧ n.toNat = str.length ∧ 2 ≤ n.toNat ∧ n.toNat ≤ 11)
      ∧ (∀ j k c, r.osym? j k = some c → c < 2 ^ s.cfg.raw.symW)
      ∧ ∀ c, r.esym? = some c → c < 2 ^ s.cfg.raw.symW

/-! ### ENCS, ENC, ENCALL -/

/-- R100, R61: with a seed operand in [0,128), ENCS answers the encoded string of `NUM_IN` under that seed, and with any other
InvalidSeed; only the responses and the port change. -/
def Obligations.EncsAnswersTheStringOrInvalidSeed : Prop :=
  ∀ s : State,
    (∀ seed : Index7, exec (.encs (seedField seed)) s = .next { s with
        responses := s.responses ++ [.strings [encodedString s.cfg s.cmd.numIn.toNat seed]], cmdValid := false })
      ∧ ∀ seed : SeedField, 128 ≤ seed.toNat →
          exec (.encs seed) s = .next { s with responses := s.responses ++ [.error .invalidSeed], cmdValid := false }

/-- R101: ENCS raises InvalidSeed exactly when its 8-bit operand is 128 or more; the check reads no table and no `NUM_IN`. -/
def Obligations.EncsRaisesInvalidSeedExactlyAbove127 : Prop :=
  (∀ (s : State) (seed : SeedField), 128 ≤ seed.toNat →
      exec (.encs seed) s = .next { s with responses := s.responses ++ [.error .invalidSeed], cmdValid := false })
    ∧ ∀ (s t : State) (seed : SeedField), exec (.encs seed) s = .next t →
        t.responses = s.responses ++ [.error .invalidSeed] → 128 ≤ seed.toNat

/-- R102: the string of ENCS has 1 + ⌈log128(num + 1)⌉ symbols, at least 2: one more than the least number of base-128 digits,
whatever the seed. -/
def Obligations.EncsStringLengthIsOnePlusDigitCount : Prop :=
  ∀ (s : State) (seed : SeedField), seed.toNat < 128 →
    ∃ t str, exec (.encs seed) s = .next t ∧ t.responses = s.responses ++ [.strings [str]]
      ∧ str.length = max 2 (1 + Nat.clog 128 (s.cmd.numIn.toNat + 1))
      ∧ (∀ m, 1 ≤ m → 128 ^ (m - 1) ≤ s.cmd.numIn.toNat → s.cmd.numIn.toNat < 128 ^ m → str.length = 1 + m)
      ∧ (s.cmd.numIn = 0#64 → str.length = 2) ∧ str.length ≤ 11

/-- R103 items 3 and 4: two ENCS commands with valid seeds that return the same string have the same seed and the same
integer. -/
def Obligations.EncsStringsNameTheirSeedAndNumber : Prop :=
  ∀ (s s' t t' : State) (a b : SeedField) (str : List SymCode), s.cfg = s'.cfg → a.toNat < 128 → b.toNat < 128 →
    exec (.encs a) s = .next t → exec (.encs b) s' = .next t' →
    t.responses = s.responses ++ [.strings [str]] → t'.responses = s'.responses ++ [.strings [str]] →
    a = b ∧ s.cmd.numIn = s'.cmd.numIn

/-- R103 item 2, R127 item 2: the round trip: DEC of the string ENCS returned gives back the integer, for every integer and every
seed in [0,128), in every state of service. -/
def Obligations.DecodeOfEncodeReturnsTheNumber : Prop :=
  ∀ (s : State) (seed : SeedField), CodecInv s → s.ready = true → seed.toNat < 128 →
    ∃ t str, exec (.encs seed) s = .next t ∧ t.responses = s.responses ++ [.strings [str]]
      ∧ ∀ num, ∃ u, exec .dec { t with cmd := { header := 0x4000#16, numIn := num, symIn := str }, cmdValid := true } = .next u
          ∧ u.responses = t.responses ++ [.value s.cmd.numIn]

/-- R104, R105: ENC answers the encoded string of `NUM_IN` under the value on `SEED_SRC`, never an error; the value is sampled
once, and what the source shows next is free (the model's form of that, log entry 3). -/
def Obligations.EncAnswersUnderTheDrawnSeed : Prop :=
  ∀ s : State,
    exec .enc s = .next { s with
      responses := s.responses ++ [.strings [encodedString s.cfg s.cmd.numIn.toNat s.seedSrc]]
      cmdValid := false
      seedSrc := Config.seedSource s.draws
      draws := s.draws + 1 }

/-- R106: DEC of the string ENC returned gives back the integer, whatever the draw. -/
def Obligations.DecodeOfEncReturnsTheNumber : Prop :=
  ∀ s : State, CodecInv s → s.ready = true →
    ∃ t str, exec .enc s = .next t ∧ t.responses = s.responses ++ [.strings [str]]
      ∧ ∀ num, ∃ u, exec .dec { t with cmd := { header := 0x4000#16, numIn := num, symIn := str }, cmdValid := true } = .next u
          ∧ u.responses = t.responses ++ [.value s.cmd.numIn]

/-- R107: ENCALL answers 128 strings in one response, string `j` being the encoded string under seed `j`, and changes only the
responses and the port; the strings are pairwise distinct and of equal length. -/
def Obligations.EncallAnswersEverySeedInOrder : Prop :=
  ∀ s : State, ∃ out : List (List SymCode),
    exec .encall s = .next { s with responses := s.responses ++ [.strings out], cmdValid := false }
      ∧ out.length = 128
      ∧ (∀ j : Index7, out[j.toNat]? = some (encodedString s.cfg s.cmd.numIn.toNat j))
      ∧ out.Nodup ∧ ∀ a ∈ out, ∀ b ∈ out, a.length = b.length

/-- R108: each string of ENCALL is the one ENCS returns for its index as seed, and DEC of it gives back the integer. -/
def Obligations.EncallStringsAreEncsStringsAndDecode : Prop :=
  ∀ s : State, CodecInv s → s.ready = true →
    ∃ t out, exec .encall s = .next t ∧ t.responses = s.responses ++ [.strings out] ∧ out.length = 128
      ∧ ∀ j : Index7, ∃ str, out[j.toNat]? = some str
          ∧ (∃ e, exec (.encs (seedField j)) s = .next e ∧ e.responses = s.responses ++ [.strings [str]])
          ∧ ∃ u, exec .dec { s with cmd := { s.cmd with symIn := str } } = .next u
              ∧ u.responses = s.responses ++ [.value s.cmd.numIn]

/-! ### DEC -/

/-- R121: DEC raises TooShort exactly when `SLEN < 2`, on the count alone. -/
def Obligations.DecRaisesTooShortExactlyBelowTwoSymbols : Prop :=
  (∀ s : State, s.cmd.symIn.length < 2 →
      exec .dec s = .next { s with responses := s.responses ++ [.error .tooShort], cmdValid := false })
    ∧ ∀ s t : State, exec .dec s = .next t → t.responses = s.responses ++ [.error .tooShort] → s.cmd.symIn.length < 2

/-- R122: with at least two symbols, a seed symbol that is absent raises UnknownSymbol with that symbol, whatever follows it. -/
def Obligations.DecRaisesUnknownSymbolOnTheSeedSymbol : Prop :=
  ∀ (s : State) (sd : SymCode) (digits : List SymCode), s.cmd.symIn = sd :: digits → digits ≠ [] →
    rmapLookup s.rmap sd = none →
    exec .dec s = .next { s with responses := s.responses ++ [.error (.unknownSymbol sd)], cmdValid := false }

/-- R123: with the seed symbol found, and every symbol before some position found with a value that fits 64 bits, an absent symbol
at that position raises UnknownSymbol with that symbol, whatever follows it. -/
def Obligations.DecRaisesUnknownSymbolOnTheFirstAbsentDigit : Prop :=
  ∀ (s : State) (sd sym : SymCode) (before after : List SymCode) (seed : Index7) (is : List Index7),
    s.cmd.symIn = sd :: (before ++ sym :: after) → rmapLookup s.rmap sd = some seed →
    before.map (rmapLookup s.rmap) = is.map some → digitsValue (is.map (fun i => unscr i seed)) < 2 ^ 64 →
    rmapLookup s.rmap sym = none →
    exec .dec s = .next { s with responses := s.responses ++ [.error (.unknownSymbol sym)], cmdValid := false }

/-- R124: with the seed symbol found, at the first position whose digits so far stand for 2^64 or more, DEC raises AccOverflow,
whatever follows. (That the block goes on after it is R150; log entry 4.) -/
def Obligations.DecRaisesAccOverflowAtTheFirstExcess : Prop :=
  ∀ (s : State) (sd sym : SymCode) (before after : List SymCode) (seed i : Index7) (is : List Index7),
    s.cmd.symIn = sd :: (before ++ sym :: after) → rmapLookup s.rmap sd = some seed →
    before.map (rmapLookup s.rmap) = is.map some → rmapLookup s.rmap sym = some i →
    digitsValue (is.map (fun i => unscr i seed)) < 2 ^ 64 →
    2 ^ 64 ≤ digitsValue ((is ++ [i]).map (fun i => unscr i seed)) →
    exec .dec s = .next { s with responses := s.responses ++ [.error .accOverflow], cmdValid := false }

/-- R120, R126: with the seed symbol and every digit symbol found and a value that fits 64 bits, DEC returns that value. The
string need not be one an encode command produces. -/
def Obligations.DecReturnsTheValueOfTheDigits : Prop :=
  ∀ (s : State) (sd : SymCode) (digits : List SymCode) (seed : Index7) (is : List Index7),
    s.cmd.symIn = sd :: digits → digits ≠ [] → rmapLookup s.rmap sd = some seed →
    digits.map (rmapLookup s.rmap) = is.map some → digitsValue (is.map (fun i => unscr i seed)) < 2 ^ 64 →
    ∃ v, v.toNat = digitsValue (is.map (fun i => unscr i seed))
      ∧ exec .dec s = .next { s with responses := s.responses ++ [.value v], cmdValid := false }

/-- R124, R125, R127 item 1: every DEC ends in exactly one of its four outcomes (an overflow in a next state: log entry 4), and each tells of its operand: a value only when every
symbol is found, UnknownSymbol only for a symbol of the string that is absent, AccOverflow only with ten digit symbols or
more. -/
def Obligations.DecEndsInOneOfFourOutcomes : Prop :=
  ∀ s : State, ∃ r, exec .dec s = .next { s with responses := s.responses ++ [r], cmdValid := false }
    ∧ ((∃ v, r = .value v ∧ 2 ≤ s.cmd.symIn.length ∧ ∀ c ∈ s.cmd.symIn, rmapLookup s.rmap c ≠ none)
      ∨ (r = .error .tooShort ∧ s.cmd.symIn.length < 2)
      ∨ (∃ c, r = .error (.unknownSymbol c) ∧ 2 ≤ s.cmd.symIn.length ∧ c ∈ s.cmd.symIn ∧ rmapLookup s.rmap c = none)
      ∨ (r = .error .accOverflow ∧ 11 ≤ s.cmd.symIn.length))

/-- R126: leading zero digits (symbols equal to the seed symbol) are accepted and change nothing, any number of them. -/
def Obligations.DecIgnoresLeadingZeroDigits : Prop :=
  ∀ (s : State) (sd : SymCode) (seed : Index7) (k : Nat) (digits : List SymCode), rmapLookup s.rmap sd = some seed →
    digits ≠ [] →
    ∃ r t u, exec .dec { s with cmd := { s.cmd with symIn := sd :: digits } } = .next t
      ∧ exec .dec { s with cmd := { s.cmd with symIn := sd :: (List.replicate k sd ++ digits) } } = .next u
      ∧ t.responses = s.responses ++ [r] ∧ u.responses = s.responses ++ [r]

/-- R180, from R120: one more symbol that is found multiplies the value by 128 and adds its digit, without any error as long as
the result fits 64 bits; where it does not fit, the longer string is answered ACC_OVERFLOW (R124). That this answer comes in a
next state is the model's reading (log entry 4). -/
def Obligations.DecOfOneMoreSymbolShiftsTheValue : Prop :=
  ∀ (s : State) (sd sym : SymCode) (digits : List SymCode) (seed i : Index7) (v : Num64),
    s.cmd.symIn = sd :: digits → digits ≠ [] → rmapLookup s.rmap sd = some seed → rmapLookup s.rmap sym = some i →
    exec .dec s = .next { s with responses := s.responses ++ [.value v], cmdValid := false } →
    ∃ r t, exec .dec { s with cmd := { s.cmd with symIn := s.cmd.symIn ++ [sym] } } = .next t
      ∧ t.responses = s.responses ++ [r]
      ∧ (v.toNat * 128 + (unscr i seed).toNat < 2 ^ 64 → ∃ w, r = .value w ∧ w.toNat = v.toNat * 128 + (unscr i seed).toNat)
      ∧ (2 ^ 64 ≤ v.toNat * 128 + (unscr i seed).toNat → r = .error .accOverflow)

/-- R124, U1, R178: the fault a model records (log entry 4) is recorded by DEC alone, once, exactly when its response is
ACC_OVERFLOW; no other command records one. -/
def Obligations.OnlyDecodeOverflowRecordsAFault : Prop :=
  ∀ i (s t : State), exec i s = .next t →
    (t.responses = s.responses ++ [.error .accOverflow]
        ∧ i = .dec ∧ t.recordedFaults = s.recordedFaults ++ [.accOverflow])
      ∨ (t.responses ≠ s.responses ++ [.error .accOverflow] ∧ t.recordedFaults = s.recordedFaults)
end

