-- ==== Sys2Proof/Laws/Datapath.lean ====
section
/-! SUPPORT. The datapath units: what each gives as a number, and the digit loop against Mathlib's digits. -/

namespace Sys2Proof.Machine

theorem scr_toNat (d seed : Index7) : (scr d seed).toNat = (d.toNat + seed.toNat) % 128 := by
  simp only [scr, BitVec.toNat_ofNat]
  omega

theorem unscr_toNat (idx seed : Index7) : (unscr idx seed).toNat = (idx.toNat + 128 - seed.toNat) % 128 := by
  simp only [unscr, BitVec.toNat_ofNat]
  omega

/-- The seed operand check and the seed it lets through. -/
theorem seedOk_iff (seed : SeedField) : seedOk seed = true ↔ seed.toNat < 128 := decide_eq_true_iff

theorem seedLow_toNat (seed : SeedField) : (seedLow seed).toNat = seed.toNat % 128 := by
  simp only [seedLow, BitVec.extractLsb'_toNat, Nat.shiftRight_zero]

theorem seedField_toNat (r : Index7) : (seedField r).toNat = r.toNat := by
  have := r.isLt
  simp only [seedField, BitVec.zeroExtend, BitVec.toNat_setWidth]
  omega

@[simp] theorem seedOk_seedField (r : Index7) : seedOk (seedField r) = true := by
  have := r.isLt
  rw [seedOk_iff, seedField_toNat]
  omega

@[simp] theorem seedLow_seedField (r : Index7) : seedLow (seedField r) = r := by
  have := r.isLt
  apply BitVec.eq_of_toNat_eq
  rw [seedLow_toNat, seedField_toNat]
  omega

/-- The accumulator step: the exact value where it fits, else overflow. -/
theorem accStep_eq_some_iff (acc : Num64) (d : Index7) (t : Num64) :
    accStep acc d = some t ↔ t.toNat = acc.toNat * 128 + d.toNat := by
  have ht := t.isLt
  simp only [accStep]
  split
  · rename_i h
    rw [Option.some.injEq, ← BitVec.toNat_inj, BitVec.toNat_ofNat, Nat.mod_eq_of_lt h]
    exact eq_comm
  · rename_i h
    constructor
    · intro h'; cases h'
    · intro h'
      omega

theorem accStep_eq_none_iff (acc : Num64) (d : Index7) :
    accStep acc d = none ↔ 2 ^ 64 ≤ acc.toNat * 128 + d.toNat := by
  simp only [accStep]
  split
  · rename_i h
    constructor
    · intro h'; cases h'
    · intro h'; omega
  · rename_i h
    exact ⟨fun _ => Nat.not_lt.mp h, fun _ => rfl⟩

/-- The value of digits read from some accumulator on. -/
theorem digitsFold_eq (ds : List Index7) (a : Nat) :
    ds.foldl (fun acc d => acc * 128 + d.toNat) a = a * 128 ^ ds.length + digitsValue ds := by
  induction ds generalizing a with
  | nil => simp only [digitsValue, List.foldl_nil, List.length_nil, pow_zero, Nat.mul_one, Nat.add_zero]
  | cons d ds ih =>
    simp only [digitsValue, List.foldl_cons, List.length_cons, Nat.zero_mul, Nat.zero_add]
    rw [ih, ih (d.toNat), pow_succ]
    ring

theorem digitsValue_cons (d : Index7) (ds : List Index7) :
    digitsValue (d :: ds) = d.toNat * 128 ^ ds.length + digitsValue ds := by
  show (d :: ds).foldl _ 0 = _
  rw [List.foldl_cons, Nat.zero_mul, Nat.zero_add, digitsFold_eq]

theorem digitsValue_append (ds es : List Index7) :
    digitsValue (ds ++ es) = digitsValue ds * 128 ^ es.length + digitsValue es := by
  show (ds ++ es).foldl _ 0 = _
  rw [List.foldl_append, digitsFold_eq]
  rfl

/-- The digit loop with enough steps: the digits of `NUMR`, most significant first, in front of those extracted. -/
theorem digitLoop_toNat (k : Nat) (numr : Num64) (ds : List Index7) (h : numr.toNat < 128 ^ k) :
    (digitLoop k numr ds).map BitVec.toNat = (Nat.digits 128 numr.toNat).reverse ++ ds.map BitVec.toNat := by
  induction k generalizing numr ds with
  | zero =>
    have h0 : numr.toNat = 0 := by simpa using h
    simp only [digitLoop, h0, Nat.digits_zero, List.reverse_nil, List.nil_append]
  | succ k ih =>
    have hlt := numr.isLt
    by_cases h0 : numr = 0#64
    · subst h0
      simp [digitLoop]
    · have hne : numr.toNat ≠ 0 := fun hz => h0 (BitVec.eq_of_toNat_eq hz)
      have hdiv : (BitVec.ofNat 64 (numr.toNat / 128)).toNat = numr.toNat / 128 := by
        rw [BitVec.toNat_ofNat]; omega
      have hmod : (BitVec.ofNat 7 (numr.toNat % 128)).toNat = numr.toNat % 128 := by
        rw [BitVec.toNat_ofNat]; omega
      simp only [digitLoop, if_neg h0]
      rw [ih _ _ (by rw [hdiv]; rw [pow_succ] at h; omega), hdiv, List.map_cons, hmod,
        Nat.digits_def' (by omega) (Nat.pos_of_ne_zero hne), List.reverse_cons, List.append_assoc]
      rfl

/-- `digits128` gives the base-128 digits, most significant first, the sole digit of 0 being 0. -/
theorem digits128_toNat (n : Num64) : (digits128 n).map BitVec.toNat = base128 n.toNat := by
  by_cases h : n = 0#64
  · subst h; rfl
  · have hne : n.toNat ≠ 0 := fun hz => h (BitVec.eq_of_toNat_eq hz)
    simp only [digits128, if_neg h, base128, if_neg hne]
    have hlt := n.isLt
    rw [digitLoop_toNat _ _ _ (Nat.lt_trans hlt (by decide))]
    simp

end Sys2Proof.Machine
end

