-- ==== Sys2Proof/Laws/State.lean ====
section
/-! SUPPORT. One lemma per field per update of State, so that no later proof unfolds a record update. -/

namespace Sys2Proof.Machine

@[simp] theorem State.respond_cfg (s : State) (r : Response) : (s.respond r).cfg = s.cfg := rfl
@[simp] theorem State.respond_rmap (s : State) (r : Response) : (s.respond r).rmap = s.rmap := rfl
@[simp] theorem State.respond_ready (s : State) (r : Response) : (s.respond r).ready = s.ready := rfl
@[simp] theorem State.respond_resetIn (s : State) (r : Response) : (s.respond r).resetIn = s.resetIn := rfl
@[simp] theorem State.respond_cmdValid (s : State) (r : Response) : (s.respond r).cmdValid = false := rfl
@[simp] theorem State.respond_cmd (s : State) (r : Response) : (s.respond r).cmd = s.cmd := rfl
@[simp] theorem State.respond_seedSrc (s : State) (r : Response) : (s.respond r).seedSrc = s.seedSrc := rfl
@[simp] theorem State.respond_draws (s : State) (r : Response) : (s.respond r).draws = s.draws := rfl
@[simp] theorem State.respond_responses (s : State) (r : Response) : (s.respond r).responses = s.responses ++ [r] := rfl
@[simp] theorem State.respond_script (s : State) (r : Response) : (s.respond r).script = s.script := rfl

@[simp] theorem State.raise_cfg (s : State) (e : CodecError) : (s.raise e).cfg = s.cfg := rfl
@[simp] theorem State.raise_rmap (s : State) (e : CodecError) : (s.raise e).rmap = s.rmap := rfl
@[simp] theorem State.raise_ready (s : State) (e : CodecError) : (s.raise e).ready = s.ready := rfl
@[simp] theorem State.raise_resetIn (s : State) (e : CodecError) : (s.raise e).resetIn = s.resetIn := rfl
@[simp] theorem State.raise_cmdValid (s : State) (e : CodecError) : (s.raise e).cmdValid = false := rfl
@[simp] theorem State.raise_cmd (s : State) (e : CodecError) : (s.raise e).cmd = s.cmd := rfl
@[simp] theorem State.raise_seedSrc (s : State) (e : CodecError) : (s.raise e).seedSrc = s.seedSrc := rfl
@[simp] theorem State.raise_draws (s : State) (e : CodecError) : (s.raise e).draws = s.draws := rfl
@[simp] theorem State.raise_responses (s : State) (e : CodecError) : (s.raise e).responses = s.responses ++ [.error e] := rfl
@[simp] theorem State.raise_script (s : State) (e : CodecError) : (s.raise e).script = s.script := rfl

@[simp] theorem State.afterDraw_cfg (s : State) : (s.afterDraw).cfg = s.cfg := rfl
@[simp] theorem State.afterDraw_rmap (s : State) : (s.afterDraw).rmap = s.rmap := rfl
@[simp] theorem State.afterDraw_ready (s : State) : (s.afterDraw).ready = s.ready := rfl
@[simp] theorem State.afterDraw_resetIn (s : State) : (s.afterDraw).resetIn = s.resetIn := rfl
@[simp] theorem State.afterDraw_cmdValid (s : State) : (s.afterDraw).cmdValid = s.cmdValid := rfl
@[simp] theorem State.afterDraw_cmd (s : State) : (s.afterDraw).cmd = s.cmd := rfl
@[simp] theorem State.afterDraw_seedSrc (s : State) : (s.afterDraw).seedSrc = Config.seedSource s.draws := rfl
@[simp] theorem State.afterDraw_draws (s : State) : (s.afterDraw).draws = s.draws + 1 := rfl
@[simp] theorem State.afterDraw_responses (s : State) : (s.afterDraw).responses = s.responses := rfl
@[simp] theorem State.afterDraw_script (s : State) : (s.afterDraw).script = s.script := rfl

@[simp] theorem State.applyReset_cfg (s : State) : (s.applyReset).cfg = s.cfg := rfl
@[simp] theorem State.applyReset_rmap (s : State) : (s.applyReset).rmap = [] := rfl
@[simp] theorem State.applyReset_ready (s : State) : (s.applyReset).ready = false := rfl
@[simp] theorem State.applyReset_resetIn (s : State) : (s.applyReset).resetIn = s.resetIn := rfl
@[simp] theorem State.applyReset_cmdValid (s : State) : (s.applyReset).cmdValid = (s.cmdValid && !s.ready) := rfl
@[simp] theorem State.applyReset_cmd (s : State) : (s.applyReset).cmd = s.cmd := rfl
@[simp] theorem State.applyReset_seedSrc (s : State) : (s.applyReset).seedSrc = s.seedSrc := rfl
@[simp] theorem State.applyReset_draws (s : State) : (s.applyReset).draws = s.draws := rfl
@[simp] theorem State.applyReset_responses (s : State) : (s.applyReset).responses = s.responses := rfl
@[simp] theorem State.applyReset_script (s : State) : (s.applyReset).script = s.script := rfl

@[simp] theorem State.presentCommand_cfg (s : State) (c : Command) : (s.presentCommand c).cfg = s.cfg := rfl
@[simp] theorem State.presentCommand_rmap (s : State) (c : Command) : (s.presentCommand c).rmap = s.rmap := rfl
@[simp] theorem State.presentCommand_ready (s : State) (c : Command) : (s.presentCommand c).ready = s.ready := rfl
@[simp] theorem State.presentCommand_resetIn (s : State) (c : Command) : (s.presentCommand c).resetIn = s.resetIn := rfl
@[simp] theorem State.presentCommand_cmdValid (s : State) (c : Command) : (s.presentCommand c).cmdValid = true := rfl
@[simp] theorem State.presentCommand_cmd (s : State) (c : Command) : (s.presentCommand c).cmd = c := rfl
@[simp] theorem State.presentCommand_seedSrc (s : State) (c : Command) : (s.presentCommand c).seedSrc = s.seedSrc := rfl
@[simp] theorem State.presentCommand_draws (s : State) (c : Command) : (s.presentCommand c).draws = s.draws := rfl
@[simp] theorem State.presentCommand_responses (s : State) (c : Command) : (s.presentCommand c).responses = s.responses := rfl
@[simp] theorem State.presentCommand_script (s : State) (c : Command) : (s.presentCommand c).script = s.script := rfl

@[simp] theorem State.build_cfg (s : State) : (s.build).cfg = s.cfg := by simp only [State.build]
@[simp] theorem State.build_rmap (s : State) : (s.build).rmap = buildEntries s.cfg s.rmap (List.range Config.radix) := by simp only [State.build]
@[simp] theorem State.build_ready (s : State) : (s.build).ready = true := by simp only [State.build]
@[simp] theorem State.build_resetIn (s : State) : (s.build).resetIn = s.resetIn := by simp only [State.build]
@[simp] theorem State.build_cmdValid (s : State) : (s.build).cmdValid = s.cmdValid := by simp only [State.build]
@[simp] theorem State.build_cmd (s : State) : (s.build).cmd = s.cmd := by simp only [State.build]
@[simp] theorem State.build_seedSrc (s : State) : (s.build).seedSrc = s.seedSrc := by simp only [State.build]
@[simp] theorem State.build_draws (s : State) : (s.build).draws = s.draws := by simp only [State.build]
@[simp] theorem State.build_responses (s : State) : (s.build).responses = s.responses := by simp only [State.build]
@[simp] theorem State.build_script (s : State) : (s.build).script = s.script := by simp only [State.build]

@[simp] theorem State.drive_present (s : State) (c : Command) : s.drive (.present c) = s.presentCommand c := rfl
@[simp] theorem State.drive_driveSeed (s : State) (r : Index7) : s.drive (.driveSeed r) = { s with seedSrc := r } := rfl
@[simp] theorem State.drive_assertReset (s : State) : s.drive .assertReset = { s.applyReset with resetIn := true } := rfl
@[simp] theorem State.drive_releaseReset (s : State) : s.drive .releaseReset = { s with resetIn := false } := rfl
@[simp] theorem State.drive_wait (s : State) : s.drive .wait = s := rfl

@[simp] theorem State.numIn_eq (s : State) : s.numIn = s.cmd.numIn := rfl
@[simp] theorem State.symIn_eq (s : State) : s.symIn = s.cmd.symIn := rfl
@[simp] theorem State.slen_eq (s : State) : s.slen = s.cmd.symIn.length := rfl

end Sys2Proof.Machine
end

