-- ==== Sys2Proof/Laws/Tables.lean ====
section
/-! SUPPORT. The tables: what a read of ALPHA gives, a read of RMAP after a write, the canonical form, and what the entry loop of
BUILD leaves. -/

namespace Sys2Proof.Machine

/-- AlphaRead: the entry of the table at the index. -/
theorem alphaRead_getElem? (cfg : Config) (i : Index7) : cfg.raw.alpha[i.toNat]? = some (alphaRead cfg i) := by
  simp only [alphaRead, List.getElem?_eq_getElem (show i.toNat < cfg.raw.alpha.length by
    have := i.isLt; have := cfg.alpha_length; omega)]

theorem alphaRead_mem (cfg : Config) (i : Index7) : alphaRead cfg i ∈ cfg.raw.alpha :=
  List.mem_of_getElem? (alphaRead_getElem? cfg i)

theorem alphaRead_lt (cfg : Config) (i : Index7) : alphaRead cfg i < 2 ^ cfg.raw.symW :=
  cfg.alpha_fits _ (alphaRead_mem cfg i)

theorem alphaRead_injective (cfg : Config) {i j : Index7} (h : alphaRead cfg i = alphaRead cfg j) : i = j :=
  BitVec.eq_of_toNat_eq ((List.Nodup.getElem_inj_iff cfg.alpha_nodup).mp h)

/-- Every entry of the table is read at some index. -/
theorem exists_alphaRead_of_mem (cfg : Config) {c : SymCode} (h : c ∈ cfg.raw.alpha) : ∃ i, alphaRead cfg i = c := by
  obtain ⟨n, hn, rfl⟩ := List.getElem_of_mem h
  have h128 : n < 128 := cfg.alpha_length ▸ hn
  exact ⟨BitVec.ofNat 7 n, by simp only [alphaRead, BitVec.toNat_ofNat, Nat.mod_eq_of_lt (show n < 2 ^ 7 from h128)]⟩

/-- RmapWrite then RmapLookup: the code written holds the index, every other code what it held. -/
theorem rmapLookup_rmapWrite (m : Rmap) (sym sym' : SymCode) (i : Index7) :
    rmapLookup (rmapWrite m sym i) sym' = if sym' = sym then some i else rmapLookup m sym' := by
  induction m with
  | nil => rfl
  | cons p m ih =>
    obtain ⟨k, j⟩ := p
    by_cases hlt : sym < k
    · simp only [rmapWrite, hlt, if_true, rmapLookup]
    · by_cases heq : sym = k
      · subst heq
        simp only [rmapWrite, Nat.lt_irrefl, if_true, if_false, rmapLookup]
        split <;> rfl
      · simp only [rmapWrite, hlt, heq, if_false, rmapLookup, ih]
        by_cases h : sym' = k
        · have : sym' ≠ sym := fun h' => heq (h'.symm.trans h)
          simp only [h, if_true, if_neg (h ▸ this)]
        · simp only [h, if_false]

theorem mem_fst_rmapWrite {m : Rmap} {sym : SymCode} {i : Index7} {p : SymCode × Index7} (h : p ∈ rmapWrite m sym i) :
    p.1 = sym ∨ p ∈ m := by
  induction m with
  | nil => exact .inl (by simp only [rmapWrite, List.mem_singleton] at h; rw [h])
  | cons q m ih =>
    obtain ⟨k, j⟩ := q
    simp only [rmapWrite] at h
    split at h
    · rcases List.mem_cons.mp h with rfl | h
      · exact .inl rfl
      · exact .inr h
    · split at h
      · rcases List.mem_cons.mp h with rfl | h
        · exact .inl rfl
        · exact .inr (List.mem_cons_of_mem _ h)
      · rcases List.mem_cons.mp h with rfl | h
        · exact .inr List.mem_cons_self
        · exact (ih h).imp id (List.mem_cons_of_mem _)

/-- RmapWrite keeps the canonical form. -/
theorem rmapWrite_wf {m : Rmap} (sym : SymCode) (i : Index7) (h : Rmap.wf m) : Rmap.wf (rmapWrite m sym i) := by
  induction m with
  | nil => exact List.pairwise_singleton _ _
  | cons q m ih =>
    obtain ⟨k, j⟩ := q
    obtain ⟨hk, hm⟩ := List.pairwise_cons.mp h
    simp only [rmapWrite]
    split
    · rename_i hlt
      refine List.pairwise_cons.mpr ⟨fun p hp => ?_, h⟩
      rcases List.mem_cons.mp hp with rfl | hp
      · exact hlt
      · exact Nat.lt_trans hlt (hk p hp)
    · split
      · rename_i heq
        subst heq
        exact List.pairwise_cons.mpr ⟨hk, hm⟩
      · rename_i hlt heq
        refine List.pairwise_cons.mpr ⟨fun p hp => ?_, ih hm⟩
        rcases mem_fst_rmapWrite hp with hp | hp
        · show k < p.1
          rw [hp]
          exact Nat.lt_of_le_of_ne (Nat.not_lt.mp hlt) (Ne.symm heq)
        · exact hk p hp

theorem rmapLookup_none_of_lt {m : Rmap} {sym : SymCode} (h : ∀ p ∈ m, sym < p.1) : rmapLookup m sym = none := by
  induction m with
  | nil => rfl
  | cons q m ih =>
    have hq := h q List.mem_cons_self
    simp only [rmapLookup, if_neg (Nat.ne_of_lt hq)]
    exact ih (fun p hp => h p (List.mem_cons_of_mem _ hp))

/-- The entry loop of BUILD over indices below 128: a code that is read at one of them is found at that index, every other code
holds what it held. -/
theorem rmapLookup_buildEntries (cfg : Config) (is : List Nat) (m : Rmap) (h : ∀ n ∈ is, n < 128) (sym : SymCode) :
    (∀ i : Index7, i.toNat ∈ is → alphaRead cfg i = sym → rmapLookup (buildEntries cfg m is) sym = some i)
      ∧ ((∀ i : Index7, i.toNat ∈ is → alphaRead cfg i ≠ sym) → rmapLookup (buildEntries cfg m is) sym = rmapLookup m sym) := by
  induction is generalizing m with
  | nil => exact ⟨fun _ hi => absurd hi List.not_mem_nil, fun _ => rfl⟩
  | cons n is ih =>
    have hn : n < 128 := h n List.mem_cons_self
    have hto : (BitVec.ofNat 7 n).toNat = n := by
      rw [BitVec.toNat_ofNat]; exact Nat.mod_eq_of_lt hn
    obtain ⟨ih1, ih2⟩ := ih (rmapWrite m (alphaRead cfg (BitVec.ofNat 7 n)) (BitVec.ofNat 7 n))
      (fun x hx => h x (List.mem_cons_of_mem _ hx))
    refine ⟨fun i hi hs => ?_, fun hno => ?_⟩
    · show rmapLookup (buildEntries cfg (rmapWrite m _ _) is) sym = some i
      by_cases hmem : i.toNat ∈ is
      · exact ih1 i hmem hs
      · have hin : i = BitVec.ofNat 7 n := by
          rcases List.mem_cons.mp hi with h' | h'
          · exact BitVec.eq_of_toNat_eq (h'.trans hto.symm)
          · exact absurd h' hmem
        rw [ih2 (fun j hj hjs => hmem (by rw [← alphaRead_injective cfg (hjs.trans hs.symm)]; exact hj)),
          rmapLookup_rmapWrite, if_pos (by rw [← hs, hin]), hin]
    · show rmapLookup (buildEntries cfg (rmapWrite m _ _) is) sym = rmapLookup m sym
      rw [ih2 (fun i hi => hno i (List.mem_cons_of_mem _ hi)), rmapLookup_rmapWrite,
        if_neg (fun he => hno (BitVec.ofNat 7 n) (by rw [hto]; exact List.mem_cons_self) he.symm)]

/-- The entry loop keeps the canonical form. -/
theorem buildEntries_wf (cfg : Config) (is : List Nat) {m : Rmap} (h : Rmap.wf m) : Rmap.wf (buildEntries cfg m is) := by
  induction is generalizing m with
  | nil => exact h
  | cons n is ih => exact ih (rmapWrite_wf _ _ h)

/-- The map BUILD leaves when it starts from the empty one holds the two lines of R11. -/
theorem mapBuilt_buildEntries (cfg : Config) : MapBuilt cfg (buildEntries cfg [] (List.range Config.radix)) := by
  have hall : ∀ n ∈ List.range Config.radix, n < 128 := fun n hn => List.mem_range.mp hn
  exact ⟨fun i => (rmapLookup_buildEntries cfg _ [] hall _).1 i (List.mem_range.mpr i.isLt) rfl,
    fun sym hno => (rmapLookup_buildEntries cfg _ [] hall sym).2 (fun i _ => hno i)⟩

/-- In a map with the two lines of R11, a code that is found is the entry at that index. -/
theorem MapBuilt.alphaRead_eq {cfg : Config} {m : Rmap} (h : MapBuilt cfg m) {sym : SymCode} {i : Index7}
    (hs : rmapLookup m sym = some i) : alphaRead cfg i = sym := by
  by_contra hne
  by_cases hex : ∃ j, alphaRead cfg j = sym
  · obtain ⟨j, hj⟩ := hex
    have h1 := h.1 j
    rw [hj, hs] at h1
    exact hne (Option.some.inj h1 ▸ hj)
  · rw [h.2 sym (fun j hj => hex ⟨j, hj⟩)] at hs
    cases hs

/-- In a map with the two lines of R11, a code is absent exactly when it is no alphabet entry. -/
theorem MapBuilt.lookup_none_iff {cfg : Config} {m : Rmap} (h : MapBuilt cfg m) (sym : SymCode) :
    rmapLookup m sym = none ↔ sym ∉ cfg.raw.alpha := by
  constructor
  · intro hn hmem
    obtain ⟨i, rfl⟩ := exists_alphaRead_of_mem cfg hmem
    rw [h.1 i] at hn
    cases hn
  · intro hn
    exact h.2 sym (fun i hi => hn (hi ▸ alphaRead_mem cfg i))

/-- Two maps with the two lines of R11 for one alphabet have the same lookups. -/
theorem MapBuilt.lookup_eq {cfg : Config} {m m' : Rmap} (h : MapBuilt cfg m) (h' : MapBuilt cfg m') (sym : SymCode) :
    rmapLookup m sym = rmapLookup m' sym := by
  by_cases hex : ∃ i, alphaRead cfg i = sym
  · obtain ⟨i, rfl⟩ := hex
    rw [h.1, h'.1]
  · have hno : ∀ i, alphaRead cfg i ≠ sym := fun i hi => hex ⟨i, hi⟩
    rw [h.2 sym hno, h'.2 sym hno]

end Sys2Proof.Machine
end

