-- ==== Sys2Proof/Laws/Commands.lean ====
section
/-! SUPPORT. The commands: what `exec` answers said once, the encoded string by ordinary arithmetic, and the symbol loop of DEC. -/

namespace Sys2Proof.Machine

/-- The response each command delivers, as the meanings compute it. -/
def execResponse : Instr → State → Response
  | .encs seed, s => encsResponse s.cfg s.cmd.numIn seed
  | .enc, s => encsResponse s.cfg s.cmd.numIn (seedField s.seedSrc)
  | .encall, s => .strings (encodeAll s.cfg s.cmd.numIn)
  | .dec, s =>
    match decodeString s.rmap s.cmd.symIn with
    | .ok v => .value v
    | .error e => .error e

/-- The state a command responds from: ENC has sampled the seed source, the others leave everything. -/
def execSource : Instr → State → State
  | .encs _, s => s
  | .enc, s => s.afterDraw
  | .encall, s => s
  | .dec, s => s

/-- All that a command can do: it answers a next state, with one response delivered and, for ENC, one draw taken. -/
theorem exec_eq (i : Instr) (s : State) : exec i s = .next ((execSource i s).respond (execResponse i s)) := by
  cases i with
  | encs seed => rfl
  | enc => rfl
  | encall => rfl
  | dec =>
    simp only [exec, execDec, execResponse, execSource, State.symIn]
    cases decodeString s.rmap s.cmd.symIn <;> rfl

theorem exec_next {i : Instr} {s t : State} (h : exec i s = .next t) :
    t = (execSource i s).respond (execResponse i s) := by
  rw [exec_eq] at h
  exact (Host.Outcome.next.inj h).symm

@[simp] theorem execSource_cfg (i : Instr) (s : State) : (execSource i s).cfg = s.cfg := by cases i <;> rfl
@[simp] theorem execSource_rmap (i : Instr) (s : State) : (execSource i s).rmap = s.rmap := by cases i <;> rfl
@[simp] theorem execSource_ready (i : Instr) (s : State) : (execSource i s).ready = s.ready := by cases i <;> rfl
@[simp] theorem execSource_resetIn (i : Instr) (s : State) : (execSource i s).resetIn = s.resetIn := by cases i <;> rfl
@[simp] theorem execSource_cmdValid (i : Instr) (s : State) : (execSource i s).cmdValid = s.cmdValid := by cases i <;> rfl
@[simp] theorem execSource_cmd (i : Instr) (s : State) : (execSource i s).cmd = s.cmd := by cases i <;> rfl
@[simp] theorem execSource_responses (i : Instr) (s : State) : (execSource i s).responses = s.responses := by
  cases i <;> rfl
@[simp] theorem execSource_script (i : Instr) (s : State) : (execSource i s).script = s.script := by cases i <;> rfl

/-- ENCS with a 7-bit seed never raises InvalidSeed. -/
theorem encsResponse_seedField (cfg : Config) (num : Num64) (r : Index7) :
    encsResponse cfg num (seedField r) = .strings [encodeString cfg num r] := by
  simp only [encsResponse, seedOk_seedField, if_true, seedLow_seedField]

theorem encsResponse_of_lt (cfg : Config) (num : Num64) {seed : SeedField} (h : seed.toNat < 128) :
    encsResponse cfg num seed = .strings [encodeString cfg num (seedLow seed)] := by
  simp only [encsResponse, (seedOk_iff seed).mpr h, if_true]

theorem encsResponse_of_le (cfg : Config) (num : Num64) {seed : SeedField} (h : 128 ≤ seed.toNat) :
    encsResponse cfg num seed = .error .invalidSeed := by
  have : seedOk seed = false := by
    rw [Bool.eq_false_iff]
    exact fun h' => absurd ((seedOk_iff seed).mp h') (Nat.not_lt.mpr h)
  simp only [encsResponse, this, Bool.false_eq_true, if_false]

/-- The string ENCS emits is the encoded string of R61. -/
theorem encodeString_eq (cfg : Config) (num : Num64) (seed : Index7) :
    encodeString cfg num seed = encodedString cfg num.toNat seed := by
  simp only [encodeString, encodedString, symOf, ← digits128_toNat, List.map_map]
  rfl

theorem encodeString_length (cfg : Config) (num : Num64) (seed : Index7) :
    (encodeString cfg num seed).length = 1 + (base128 num.toNat).length := by
  rw [← digits128_toNat]
  simp only [encodeString, List.length_cons, List.length_map]
  exact Nat.add_comm _ _

theorem encodeString_mem (cfg : Config) (num : Num64) (seed : Index7) {c : SymCode}
    (h : c ∈ encodeString cfg num seed) : c ∈ cfg.raw.alpha := by
  simp only [encodeString, List.mem_cons, List.mem_map] at h
  rcases h with rfl | ⟨d, _, rfl⟩
  · exact alphaRead_mem cfg _
  · exact alphaRead_mem cfg _

/-- The symbol loop of DEC over symbols that are all found: the next symbol is reached with the exact value so far. -/
theorem decodeLoop_append (m : Rmap) (seed : Index7) (syms rest : List SymCode) (is : List Index7) (acc : Num64)
    (h : syms.map (rmapLookup m) = is.map some)
    (hv : acc.toNat * 128 ^ is.length + digitsValue (is.map (fun i => unscr i seed)) < 2 ^ 64) :
    ∃ t : Num64, t.toNat = acc.toNat * 128 ^ is.length + digitsValue (is.map (fun i => unscr i seed))
      ∧ decodeLoop m seed acc (syms ++ rest) = decodeLoop m seed t rest := by
  induction syms generalizing is acc with
  | nil =>
    cases is with
    | nil => exact ⟨acc, by simp [digitsValue], rfl⟩
    | cons i is => simp at h
  | cons sym syms ih =>
    cases is with
    | nil => simp at h
    | cons i is =>
      obtain ⟨hsym, hrest⟩ := List.cons.inj h
      have hval : acc.toNat * 128 ^ (i :: is).length + digitsValue ((i :: is).map (fun i => unscr i seed))
          = (acc.toNat * 128 + (unscr i seed).toNat) * 128 ^ is.length + digitsValue (is.map (fun i => unscr i seed)) := by
        rw [List.map_cons, digitsValue_cons, List.length_cons, List.length_map, pow_succ]
        ring
      have hle : acc.toNat * 128 + (unscr i seed).toNat < 2 ^ 64 := by
        refine Nat.lt_of_le_of_lt ?_ (hval ▸ hv)
        exact Nat.le_trans (Nat.le_mul_of_pos_right _ (by positivity)) (Nat.le_add_right _ _)
      have hstep : accStep acc (unscr i seed) = some (BitVec.ofNat 64 (acc.toNat * 128 + (unscr i seed).toNat)) := by
        rw [accStep_eq_some_iff, BitVec.toNat_ofNat, Nat.mod_eq_of_lt hle]
      have hto : (BitVec.ofNat 64 (acc.toNat * 128 + (unscr i seed).toNat)).toNat
          = acc.toNat * 128 + (unscr i seed).toNat := by rw [BitVec.toNat_ofNat, Nat.mod_eq_of_lt hle]
      obtain ⟨t, ht, heq⟩ := ih is (BitVec.ofNat 64 (acc.toNat * 128 + (unscr i seed).toNat)) hrest
        (by rw [hto]; exact hval ▸ hv)
      refine ⟨t, by rw [ht, hto, hval], ?_⟩
      rw [List.cons_append, decodeLoop, indexOf, hsym]
      simp only [hstep]
      exact heq

/-- DEC of a string with at least two symbols: the seed symbol, then the loop. -/
theorem decodeString_cons (m : Rmap) (sd : SymCode) {digits : List SymCode} (h : digits ≠ []) :
    decodeString m (sd :: digits) =
      match rmapLookup m sd with
      | none => .error (.unknownSymbol sd)
      | some seed => decodeLoop m seed 0#64 digits := by
  cases digits with
  | nil => exact absurd rfl h
  | cons c cs => rfl

/-- How the loop of DEC can end: with a value only when every symbol is found, with UnknownSymbol only for an absent symbol of
the string, or with AccOverflow. -/
theorem decodeLoop_cases (m : Rmap) (seed : Index7) (syms : List SymCode) (acc : Num64) :
    (∃ v, decodeLoop m seed acc syms = .ok v ∧ ∀ c ∈ syms, rmapLookup m c ≠ none)
      ∨ (∃ c, decodeLoop m seed acc syms = .error (.unknownSymbol c) ∧ c ∈ syms ∧ rmapLookup m c = none)
      ∨ decodeLoop m seed acc syms = .error .accOverflow := by
  induction syms generalizing acc with
  | nil => exact .inl ⟨acc, rfl, fun _ h => absurd h List.not_mem_nil⟩
  | cons sym syms ih =>
    simp only [decodeLoop, indexOf]
    cases hl : rmapLookup m sym with
    | none => exact .inr (.inl ⟨sym, rfl, List.mem_cons_self, hl⟩)
    | some i =>
      simp only []
      cases hs : accStep acc (unscr i seed) with
      | none => exact .inr (.inr rfl)
      | some t =>
        rcases ih t with ⟨v, hv, hall⟩ | ⟨c, hc, hmem, hn⟩ | ho
        · refine .inl ⟨v, hv, fun c hc => ?_⟩
          rcases List.mem_cons.mp hc with rfl | hc
          · rw [hl]; exact Option.some_ne_none _
          · exact hall c hc
        · exact .inr (.inl ⟨c, hc, List.mem_cons_of_mem _ hmem, hn⟩)
        · exact .inr (.inr ho)

/-- The loop of DEC over two runs of symbols: the second starts with the value of the first. -/
theorem decodeLoop_append_ok (m : Rmap) (seed : Index7) (syms rest : List SymCode) {acc v : Num64}
    (h : decodeLoop m seed acc syms = .ok v) : decodeLoop m seed acc (syms ++ rest) = decodeLoop m seed v rest := by
  induction syms generalizing acc with
  | nil =>
    cases h
    rfl
  | cons sym syms ih =>
    simp only [decodeLoop, List.cons_append] at h ⊢
    cases hl : indexOf m sym with
    | none => simp only [hl] at h; cases h
    | some i =>
      simp only [hl] at h ⊢
      cases hs : accStep acc (unscr i seed) with
      | none => simp only [hs] at h; cases h
      | some t => simp only [hs] at h ⊢; exact ih h

/-- The loop of DEC reads the map only through its lookups. -/
theorem decodeLoop_congr {m m' : Rmap} (h : ∀ sym, rmapLookup m sym = rmapLookup m' sym) (seed : Index7) (acc : Num64)
    (syms : List SymCode) : decodeLoop m seed acc syms = decodeLoop m' seed acc syms := by
  induction syms generalizing acc with
  | nil => rfl
  | cons sym syms ih => simp only [decodeLoop, indexOf, h, ih]

/-- DEC reads the map only through its lookups. -/
theorem decodeString_congr {m m' : Rmap} (h : ∀ sym, rmapLookup m sym = rmapLookup m' sym) (str : List SymCode) :
    decodeString m str = decodeString m' str := by
  cases str with
  | nil => rfl
  | cons sd digits =>
    cases digits with
    | nil => rfl
    | cons c cs => simp only [decodeString, indexOf, h, decodeLoop_congr h]

end Sys2Proof.Machine
end

