-- ==== Sys2Proof/Laws/PerInstr.lean ====
section
/-! SUPPORT. Statements made per instruction: the header each constructor is encoded in. -/

namespace Sys2Proof.Laws.EncodedHeader

/-- The encoded header has the command's `OP` and `SEED`, `RSV` = 0, and is not the all-zero header, which is illegal (R52,
R53). -/
def Statement (i : Instr) : Prop :=
  headerOp (encode i) = opcodeOf i ∧ headerRsv (encode i) = 0#4 ∧ headerSeed (encode i) = seedFieldOf i ∧ encode i ≠ 0#16

theorem encs (seed : SeedField) : Statement (.encs seed) := by
  revert seed
  unfold Statement
  decide +kernel

theorem enc : Statement .enc := by unfold Statement; decide

theorem encall : Statement .encall := by unfold Statement; decide

theorem dec : Statement .dec := by unfold Statement; decide

end Sys2Proof.Laws.EncodedHeader
end

