-- ==== Sys2Proof/Laws/Step.lean ====
section
/-! SUPPORT. What a step can do, said once: by the agent that has the turn, then by what the block finds. -/

namespace Sys2Proof.Machine

/-- The script that is left when the block has the turn (log entry 6). -/
def BlockTurn (s : State) (script : List HostAction) : Prop :=
  (s.script = [] ∧ script = [])
    ∨ s.script = .wait :: script
    ∨ ∃ c rest, s.script = .present c :: rest ∧ s.cmdValid = true ∧ script = s.script

/-- All that a step can do: an agent outside the block drives its line, or the block moves. -/
theorem step_cases {s t : State} (h : step s = .next t) :
    (∃ c rest, s.script = .present c :: rest ∧ s.cmdValid = false ∧ t = State.presentCommand { s with script := rest } c)
      ∨ (∃ r rest, s.script = .driveSeed r :: rest ∧ t = { s with script := rest, seedSrc := r })
      ∨ (∃ rest, s.script = .assertReset :: rest ∧ t = { State.applyReset { s with script := rest } with resetIn := true })
      ∨ (∃ rest, s.script = .releaseReset :: rest ∧ t = { s with script := rest, resetIn := false })
      ∨ ∃ script, BlockTurn s script ∧ codecMove { s with script := script } = .next t := by
  cases hs : s.script with
  | nil =>
    simp only [step, turn, hs] at h
    refine .inr (.inr (.inr (.inr ⟨[], .inl ⟨hs, rfl⟩, ?_⟩)))
    rw [← hs]; exact h
  | cons a rest =>
    cases a with
    | present c =>
      simp only [step, turn, hs] at h
      split at h
      · rename_i hv
        refine .inr (.inr (.inr (.inr ⟨s.script, .inr (.inr ⟨c, rest, hs, hv, rfl⟩), h⟩)))
      · rename_i hv
        exact .inl ⟨c, rest, rfl, Bool.eq_false_iff.mpr hv, (Host.Outcome.next.inj h).symm⟩
    | driveSeed r =>
      simp only [step, turn, hs] at h
      exact .inr (.inl ⟨r, rest, rfl, (Host.Outcome.next.inj h).symm⟩)
    | assertReset =>
      simp only [step, turn, hs] at h
      exact .inr (.inr (.inl ⟨rest, rfl, (Host.Outcome.next.inj h).symm⟩))
    | releaseReset =>
      simp only [step, turn, hs] at h
      exact .inr (.inr (.inr (.inl ⟨rest, rfl, (Host.Outcome.next.inj h).symm⟩)))
    | wait =>
      simp only [step, turn, hs] at h
      exact .inr (.inr (.inr (.inr ⟨rest, .inr (.inl hs), h⟩)))

/-- All that a move of the block can do: reset, BUILD, an illegal header, a command, or nothing. -/
theorem codecMove_cases {s t : State} (h : codecMove s = .next t) :
    (s.resetIn = true ∧ t = s.applyReset)
      ∨ (s.resetIn = false ∧ s.ready = false ∧ t = s.build)
      ∨ (s.resetIn = false ∧ s.ready = true ∧ s.cmdValid = true ∧ (∃ e, decode s.cmd.header = .error e)
          ∧ t = s.raise .illegalCmd)
      ∨ (s.resetIn = false ∧ s.ready = true ∧ s.cmdValid = true ∧ ∃ i, decode s.cmd.header = .ok i
          ∧ t = (execSource i s).respond (execResponse i s))
      ∨ (s.resetIn = false ∧ s.ready = true ∧ s.cmdValid = false ∧ t = s) := by
  unfold codecMove at h
  split at h
  · rename_i hr
    exact .inl ⟨hr, (Host.Outcome.next.inj h).symm⟩
  · rename_i hr
    have hr := Bool.eq_false_iff.mpr hr
    split at h
    · rename_i hd
      exact .inr (.inl ⟨hr, hd, (Host.Outcome.next.inj h).symm⟩)
    · rename_i hd
      have hd : s.ready = true := by cases hq : s.ready with
        | true => rfl
        | false => exact absurd hq hd
      split at h
      · rename_i hv
        cases hdec : decode s.cmd.header with
        | error e =>
          simp only [performCommand, hdec] at h
          exact .inr (.inr (.inl ⟨hr, hd, hv, ⟨e, rfl⟩, (Host.Outcome.next.inj h).symm⟩))
        | ok i =>
          simp only [performCommand, hdec] at h
          exact .inr (.inr (.inr (.inl ⟨hr, hd, hv, i, rfl, exec_next h⟩)))
      · rename_i hv
        exact .inr (.inr (.inr (.inr ⟨hr, hd, Bool.eq_false_iff.mpr hv, (Host.Outcome.next.inj h).symm⟩)))

/-- The block with a command at the port, in service: its move. -/
theorem codecMove_ok {s : State} {i : Instr} (hr : s.resetIn = false) (hd : s.ready = true) (hv : s.cmdValid = true)
    (h : decode s.cmd.header = .ok i) : codecMove s = exec i s := by
  simp only [codecMove, performCommand, hr, hd, hv, h, Bool.false_eq_true, if_false, Bool.true_eq_false, if_true]

theorem codecMove_error {s : State} {e : DecodeError} (hr : s.resetIn = false) (hd : s.ready = true)
    (hv : s.cmdValid = true) (h : decode s.cmd.header = .error e) : codecMove s = .next (s.raise .illegalCmd) := by
  simp only [codecMove, performCommand, hr, hd, hv, h, Bool.false_eq_true, if_false, Bool.true_eq_false, if_true]

theorem codecMove_build {s : State} (hr : s.resetIn = false) (hd : s.ready = false) : codecMove s = .next s.build := by
  simp only [codecMove, hr, hd, Bool.false_eq_true, if_false, if_true]

theorem codecMove_reset {s : State} (hr : s.resetIn = true) : codecMove s = .next s.applyReset := by
  simp only [codecMove, hr, if_true]

theorem codecMove_idle {s : State} (hr : s.resetIn = false) (hd : s.ready = true) (hv : s.cmdValid = false) :
    codecMove s = .next s := by
  simp only [codecMove, hr, hd, hv, Bool.false_eq_true, if_false, Bool.true_eq_false]

theorem step_nil {s : State} (h : s.script = []) : step s = codecMove s := by
  simp only [step, turn, h]

theorem step_wait {s : State} {rest : List HostAction} (h : s.script = .wait :: rest) :
    step s = codecMove { s with script := rest } := by
  simp only [step, turn, h]

theorem step_present_busy {s : State} {c : Command} {rest : List HostAction} (h : s.script = .present c :: rest)
    (hv : s.cmdValid = true) : step s = codecMove s := by
  simp only [step, turn, h, hv, if_true]

/-- The placed header is what the next step performs. -/
theorem step_withFetchWord {s : State} {nbits w : Nat} {i : Instr}
    (h : decode (BitVec.ofNat 16 (w % 2 ^ nbits)) = .ok i) :
    step (s.withFetchWord nbits w) = exec i (s.withFetchWord nbits w) := by
  rw [step_nil (s := s.withFetchWord nbits w) rfl]
  exact codecMove_ok (s := s.withFetchWord nbits w) rfl rfl rfl h

/-- One step of a run. -/
theorem run_next {k : Nat} {s t : State} (h : step s = .next t) :
    Host.Core.run Sys2Proof.core (k + 1) s = Host.Core.run Sys2Proof.core k t := by
  have h' : Sys2Proof.core.step s = .next t := h
  show Host.Core.run Sys2Proof.core (k + 1) s = _
  simp only [Host.Core.run, h']

/-- The reverse map after reset is in canonical form. -/
theorem reset_rmap_wf : Rmap.wf State.reset.rmap := List.Pairwise.nil

end Sys2Proof.Machine
end

