-- ==== Sys2Proof/Tests/Slice0.lean ====
section
/-! SUPPORT. Tests: well-formedness smoke tests, header words written out from R53, vectors of 95_test_vectors.md through one step,
and for every statement with hypotheses a state and operands that meet them (witness_<statement>). -/

namespace Sys2Proof.Tests

open Sys2Proof.Machine

/-! ### The test alphabets of 95_test_vectors section 0 -/

def rawT1 : RawConfig := { symW := 16, lenW := 16, alpha := (List.range 128).map (fun i => 0xAC00 + i) }
def rawT2 : RawConfig := { symW := 16, lenW := 16, alpha := (List.range 128).map (fun i => 0x3000 + (37 * i + 11) % 128) }
theorem rawT1_wf : rawT1.wf = true := by decide +kernel
theorem rawT2_wf : rawT2.wf = true := by decide +kernel
def T1 : Config := { raw := rawT1, ok := rawT1_wf }
def T2 : Config := { raw := rawT2, ok := rawT2_wf }

/-- The block in service with an alphabet: `READY` = 1, the map built, no command at the port. -/
def inService (cfg : Config) : State :=
  { State.reset with cfg := cfg, rmap := buildEntries cfg [] (List.range 128), ready := true }

/-- The block in service with a command at the port and a value on `SEED_SRC`. -/
def serving (cfg : Config) (h : Header) (num : Num64) (str : List SymCode) (r : Index7) : State :=
  { inService cfg with cmd := { header := h, numIn := num, symIn := str }, cmdValid := true, seedSrc := r }

/-- The responses delivered after a step. -/
def delivered : Host.Outcome State Fault Refusal → List Response
  | .next s => s.responses
  | .fault _ => []
  | .refused _ => []

/-- Each string a response carries, at index `j`. -/
def deliveredString (o : Host.Outcome State Fault Refusal) (j : Nat) : List (Option (List SymCode)) :=
  (delivered o).map (fun r => r.string? j)

/-! ### Well-formedness: an ill-formed term for each check -/

theorem test_config_refuses_narrow_symbols : { rawT1 with symW := 6, alpha := List.range 128 : RawConfig }.wf = false := by
  decide +kernel
theorem test_config_refuses_narrow_length : { rawT1 with lenW := 3 : RawConfig }.wf = false := by decide +kernel
theorem test_config_refuses_127_entries : { rawT1 with alpha := List.range 127 : RawConfig }.wf = false := by decide +kernel
theorem test_config_refuses_wide_code : { rawT1 with alpha := (2 ^ 16) :: List.range 127 : RawConfig }.wf = false := by
  decide +kernel
theorem test_config_refuses_repeated_symbol : { rawT1 with alpha := 5 :: List.range 127 : RawConfig }.wf = false := by
  decide +kernel
theorem test_command_refuses_wide_code : (Command.mk 0x4000#16 0#64 [0xAC00, 2 ^ 16]).wf T1 = false := by decide
theorem test_command_refuses_long_string :
    (Command.mk 0x4000#16 0#64 (List.replicate 16 1)).wf { raw := RawConfig.smallest, ok := RawConfig.smallest_wf } = false := by
  decide
theorem test_asm_refuses_out_of_range :
    (AsmLine.encs (2 ^ 64) 0).wf T1 = false ∧ (AsmLine.encs 0 256).wf T1 = false ∧ (AsmLine.enc (2 ^ 64)).wf T1 = false
      ∧ (AsmLine.encall (2 ^ 64)).wf T1 = false ∧ (AsmLine.dec (.codes [2 ^ 16])).wf T1 = false
      ∧ (AsmLine.dec (.indexForm 128 [0])).wf T1 = false ∧ (AsmLine.dec (.indexForm 0 [128])).wf T1 = false := by decide

/-! ### Headers: every row of 95_test_vectors section 2.3 -/

theorem test_decode_encs : decode 0b0001000000000101#16 = .ok (.encs 5#8) ∧ decode 0x107F#16 = .ok (.encs 127#8)
    ∧ decode 0x1080#16 = .ok (.encs 128#8) ∧ decode 0x10FF#16 = .ok (.encs 255#8) := by decide
theorem test_decode_enc : decode 0b0010000000000000#16 = .ok .enc := by decide
theorem test_decode_encall : decode 0b0011000000000000#16 = .ok .encall := by decide
theorem test_decode_dec : decode 0b0100000000000000#16 = .ok .dec := by decide
theorem test_decode_refuses : decode 0x0000#16 = .error .opcodeUnknown ∧ decode 0x1100#16 = .error .reservedNotZero
    ∧ decode 0x2001#16 = .error .seedNotZero ∧ decode 0x3005#16 = .error .seedNotZero ∧ decode 0x4080#16 = .error .seedNotZero
    ∧ decode 0x4800#16 = .error .reservedNotZero ∧ decode 0x5000#16 = .error .opcodeUnknown
    ∧ decode 0xF000#16 = .error .opcodeUnknown ∧ decode 0xFFFF#16 = .error .reservedNotZero := by decide
theorem test_encode : encode (.encs 0x64#8) = 0x1064#16 ∧ encode .enc = 0x2000#16 ∧ encode .encall = 0x3000#16
    ∧ encode .dec = 0x4000#16 := by decide
theorem test_decodeTableWord : decodeTableWord 16 0x10C8 = some (.encs 200#8) ∧ decodeTableWord 16 0x4000 = some .dec
    ∧ decodeTableWord 16 0x0000 = none := by decide

/-! ### Datapath units: rows of 95_test_vectors section 2.1 -/

theorem test_scr : scr 127#7 1#7 = 0#7 ∧ scr 127#7 127#7 = 126#7 ∧ scr 96#7 100#7 = 68#7 ∧ scr 57#7 100#7 = 29#7 := by decide
theorem test_unscr : unscr 0#7 127#7 = 1#7 ∧ unscr 0#7 1#7 = 127#7 ∧ unscr 127#7 5#7 = 122#7 ∧ unscr 29#7 100#7 = 57#7 := by
  decide
theorem test_digits128 : digits128 0#64 = [0#7] ∧ digits128 300#64 = [2#7, 44#7] ∧ digits128 1000000#64 = [61#7, 4#7, 64#7]
    ∧ digits128 9223372036854775808#64 = 1#7 :: List.replicate 9 0#7
    ∧ digits128 18446744073709551615#64 = 1#7 :: List.replicate 9 127#7 := by decide
theorem test_accStep : accStep 144115188075855871#64 127#7 = some 18446744073709551615#64
    ∧ accStep 144115188075855872#64 0#7 = none ∧ accStep 96#64 57#7 = some 12345#64 := by decide

/-! ### Commands, through one step: rows of 95_test_vectors sections 2.2 to 2.7 -/

/-- Section 2.4: ENCS 12345, 100 under T2. -/
theorem test_encs : delivered (step (serving T2 0x1064#16 12345#64 [] 0#7)) = [.strings [[0x307F, 0x305F, 0x303C]]] := by
  decide +kernel
/-- Section 2.4: ENCS 2^64-1, 127 under T1, eleven symbols; ENCS 12345, 128. -/
theorem test_encs_limits :
    delivered (step (serving T1 0x107F#16 18446744073709551615#64 [] 0#7))
        = [.strings [0xAC7F :: 0xAC00 :: List.replicate 9 0xAC7E]]
      ∧ delivered (step (serving T1 0x1080#16 12345#64 [] 0#7)) = [.error .invalidSeed] := by decide +kernel
/-- Section 2.5: ENC 12345 with the draws 127 and 1. -/
theorem test_enc :
    delivered (step (serving T1 0x2000#16 12345#64 [] 127#7)) = [.strings [[0xAC7F, 0xAC5F, 0xAC38]]]
      ∧ delivered (step (serving T1 0x2000#16 12345#64 [] 1#7)) = [.strings [[0xAC01, 0xAC61, 0xAC3A]]] := by decide +kernel
/-- Section 2.6: rows 32 and 71 of ENCALL 12345. -/
theorem test_encall :
    deliveredString (step (serving T1 0x3000#16 12345#64 [] 0#7)) 32 = [some [0xAC20, 0xAC00, 0xAC59]]
      ∧ deliveredString (step (serving T1 0x3000#16 12345#64 [] 0#7)) 71 = [some [0xAC47, 0xAC27, 0xAC00]] := by
  decide +kernel
/-- Section 2.7: DEC of `[42; 103, 46, 106]` under T2. -/
theorem test_dec : delivered (step (serving T2 0x4000#16 0#64 [0x301D, 0x306E, 0x3031, 0x305D] 0#7))
    = [.value 1000000#64] := by decide +kernel
/-- Section 2.7: the overflow at position 10 comes before the unknown symbol at position 11. -/
theorem test_dec_overflow_first :
    delivered (step (serving T1 0x4000#16 0#64 (0xAC00 :: 0xAC02 :: (List.replicate 9 0xAC00 ++ [0x0041])) 0#7))
      = [.error .accOverflow] := by decide +kernel
/-- Section 2.2: RMAP after BUILD under T2. -/
theorem test_build :
    rmapLookup (inService T2).rmap 0x3000 = some 17#7 ∧ rmapLookup (inService T2).rmap 0x3066 = some 127#7
      ∧ rmapLookup (inService T2).rmap 0x3080 = none := by decide +kernel
/-- R59: an illegal header. -/
theorem test_illegal : delivered (step (serving T1 0x5000#16 0#64 [] 0#7)) = [.error .illegalCmd] := by decide +kernel

/-- R56, R58: the fields of the response to ENCS 12345, 100 under T1 (program P1, step 1). -/
theorem test_fields : (Response.strings [[0xAC64, 0xAC44, 0xAC1D]]).ocnt? = some 1#8
    ∧ (Response.strings [[0xAC64, 0xAC44, 0xAC1D]]).olen? 0 = some 3#4
    ∧ (Response.strings [[0xAC64, 0xAC44, 0xAC1D]]).osym? 0 2 = some 0xAC1D
    ∧ (Response.error (.unknownSymbol 0x41)).esym? = some 0x41 := by decide

/-- R62: the text of lines and of responses. -/
theorem test_text : asmText (.encs 12345 100) = "ENCS 12345, 100".toList
    ∧ asmText (.dec (.codes [0xAC00, 0xAC60])) = "DEC <0xAC00, 0xAC60>".toList
    ∧ asmText (.dec (.indexForm 3 [3, 4])) = "DEC [3; 3, 4]".toList
    ∧ responseText (.error (.unknownSymbol 0x41)) = "-> UNKNOWN_SYMBOL(0x41)".toList
    ∧ responseText (.value 12345#64) = "-> OK 12345".toList := by decide +kernel

/-! ### Witnesses: for each statement with hypotheses, a state and operands that meet them together -/

/-- The states in service meet the invariant. -/
theorem serving_inv (h : Header) (num : Num64) (str : List SymCode) (r : Index7)
    (hfit : stringFits T1 str = true) : CodecInv (serving T1 h num str r) where
  canonical := buildEntries_wf _ _ List.Pairwise.nil
  built := fun _ => mapBuilt_buildEntries T1
  empty := fun h => by cases h
  portFits := hfit
  scriptFits := fun _ h => absurd h List.not_mem_nil
  responsesFit := fun _ h => absurd h List.not_mem_nil

/-- A state with a small map: codes 10, 11, 12 at indices 0, 1, 2. -/
def small (h : Header) (num : Num64) (str : List SymCode) : State :=
  { State.reset with
    cfg := T1, rmap := [(10, 0#7), (11, 1#7), (12, 2#7)], ready := true, cmdValid := true
    cmd := { header := h, numIn := num, symIn := str } }

theorem witness_IllegalHeaderIsAnsweredIllegalCmd :
    Serving (small 0x5000#16 0#64 []) ∧ decode (small 0x5000#16 0#64 []).cmd.header = .error .opcodeUnknown :=
  ⟨⟨rfl, rfl, rfl, rfl⟩, by decide⟩

theorem witness_DecodeAndEncodeAreInverse : decode 0x10FF#16 = .ok (.encs 255#8) := by decide

theorem witness_AssemblerLinesGiveTheirCommands :
    (AsmLine.encs (2 ^ 64 - 1) 255).wf T1 = true ∧ (AsmLine.enc (2 ^ 64 - 1)).wf T1 = true
      ∧ (AsmLine.encall 0).wf T1 = true ∧ (AsmLine.dec (.indexForm 127 [0, 127])).wf T1 = true := by decide

theorem witness_DigitsAreMinimalAndExact : 128#64 ≠ 0#64 ∧ (128#64).toNat < 128 ^ 2 := by decide
theorem witness_DigitsAreBitFieldsOfTheNumber : 9 < (digits128 9223372036854775808#64).length := by decide
theorem witness_AccumulatorStepIsExactOrOverflows : accStep 144115188075855871#64 127#7 = some 18446744073709551615#64 := by
  decide

theorem witness_AlphabetIsDistinctAndReadOnly :
    alphaRead T1 127#7 = alphaRead T1 127#7 ∧ ∃ t, step (small 0x2000#16 0#64 []) = .next t := ⟨rfl, _, rfl⟩

theorem witness_OnlyWellFormedConfigurationsAreBuilt : Config.ofRaw? rawT1 = some T1 := dif_pos rawT1_wf

theorem witness_BuildMakesTheReverseMap :
    State.reset.script = [] ∧ State.reset.resetIn = false ∧ State.reset.ready = false ∧ State.reset.rmap = []
      ∧ ({ State.reset with script := [.wait] } : State).script = .wait :: []
      ∧ ({ State.reset with script := [.present State.reset.cmd], cmdValid := true } : State).script
          = .present State.reset.cmd :: []
      ∧ ({ State.reset with script := [.present State.reset.cmd], cmdValid := true } : State).cmdValid = true :=
  ⟨rfl, rfl, rfl, rfl, rfl, rfl, rfl⟩

theorem witness_CanonicalMapsWithEqualLookupsAreEqual :
    Rmap.wf [(10, 0#7), (11, 1#7)] ∧ ∀ sym, rmapLookup [(10, 0#7), (11, 1#7)] sym
      = rmapLookup (rmapWrite [(11, 1#7)] 10 0#7) sym :=
  ⟨by decide, fun _ => rfl⟩

theorem witness_ResetSequenceRunsBuild :
    ({ small 0x2000#16 0#64 [] with resetIn := true, script := [.wait, .releaseReset] } : State).resetIn = true
      ∧ ∃ t, step { small 0x2000#16 0#64 [] with resetIn := true, script := [.wait, .releaseReset] } = .next t :=
  ⟨rfl, _, rfl⟩

/-- The witness state of the statements about reset and about the invariant, with a script. -/
def scripted (script : List HostAction) : State := { serving T1 0x4000#16 7#64 [0xAC00, 0xAC07] 5#7 with script := script }

theorem scripted_inv (script : List HostAction) (h : ∀ c, HostAction.present c ∈ script → c.wf T1 = true) :
    CodecInv (scripted script) :=
  { serving_inv 0x4000#16 7#64 [0xAC00, 0xAC07] 5#7 (by decide) with scriptFits := h }

theorem witness_ResetAbandonsTheCommandAndRebuilds :
    CodecInv (scripted [.assertReset, .releaseReset]) ∧ (scripted [.assertReset, .releaseReset]).ready = true
      ∧ (scripted [.assertReset, .releaseReset]).cmdValid = true :=
  ⟨scripted_inv _ (by simp), rfl, rfl⟩

theorem witness_CommandIsHeldUntilReady :
    ({ State.reset with cmdValid := true } : State).script = [] ∧ ({ State.reset with cmdValid := true } : State).resetIn = false
      ∧ ({ State.reset with cmdValid := true } : State).ready = false
      ∧ decode ({ State.reset with cmdValid := true } : State).cmd.header = .error .opcodeUnknown
      ∧ decode ({ State.reset with cmd := { header := 0x2000#16, numIn := 0#64, symIn := [] } } : State).cmd.header = .ok .enc
      ∧ step { State.reset with cmdValid := true } = .next (State.build { State.reset with cmdValid := true }) :=
  ⟨rfl, rfl, rfl, rfl, rfl, (step_nil rfl).trans (codecMove_build rfl rfl)⟩

theorem witness_ReadyIsSetByBuildAndClearedByReset :
    (∃ t, step State.reset = .next t ∧ State.reset.ready = false ∧ t.ready = true)
      ∧ (∃ t, step { small 0x2000#16 0#64 [] with script := [.assertReset] } = .next t ∧ t.ready = false)
      ∧ ∃ t, step { small 0x2000#16 0#64 [] with resetIn := true } = .next t ∧ t.ready = false :=
  ⟨⟨State.reset.build, (step_nil rfl).trans (codecMove_build rfl rfl), rfl, by simp⟩, ⟨_, rfl, rfl⟩, ⟨_, rfl, rfl⟩⟩

theorem witness_EveryStepKeepsTheInvariant :
    CodecInv (scripted []) ∧ ∃ t, step (scripted []) = .next t :=
  ⟨scripted_inv _ (by simp), _, (step_nil rfl).trans ((codecMove_ok (i := .dec) rfl rfl rfl (by decide)).trans (exec_eq _ _))⟩

theorem witness_StepRunsTheDecodedCommand :
    (small 0x10FF#16 0#64 []).resetIn = false ∧ (small 0x10FF#16 0#64 []).ready = true
      ∧ (small 0x10FF#16 0#64 []).cmdValid = true ∧ decode (small 0x10FF#16 0#64 []).cmd.header = .ok (.encs 255#8)
      ∧ (small 0x10FF#16 0#64 []).script = []
      ∧ ({ small 0x10FF#16 0#64 [] with script := [.wait] } : State).script = .wait :: []
      ∧ ({ small 0x10FF#16 0#64 [] with script := [.present (small 0#16 0#64 []).cmd] } : State).script
          = .present (small 0#16 0#64 []).cmd :: [] :=
  ⟨rfl, rfl, rfl, by decide, rfl, rfl, rfl⟩

theorem witness_OutsideActionsHaveTheirListedEffects :
    ({ State.reset with script := [.present State.reset.cmd] } : State).cmdValid = false
      ∧ ({ State.reset with script := [.driveSeed 127#7] } : State).script = .driveSeed 127#7 :: []
      ∧ ({ State.reset with script := [.releaseReset] } : State).script = .releaseReset :: []
      ∧ ({ State.reset with script := [.assertReset] } : State).script = .assertReset :: []
      ∧ ({ State.reset with script := [.wait], ready := true } : State).resetIn = false
      ∧ ({ State.reset with script := [.wait], ready := true } : State).cmdValid = false
      ∧ ({ State.reset with ready := true } : State).script = []
      ∧ ({ State.reset with ready := true } : State).cmdValid = false :=
  ⟨rfl, rfl, rfl, rfl, rfl, rfl, rfl, rfl⟩

theorem witness_CommandsLeavePersistentStateUnchanged :
    (∃ t, step (small 0x4000#16 0#64 [10, 99]) = .next t ∧ t.responses = [.error (.unknownSymbol 99)])
      ∧ (small 0x4000#16 0#64 [10, 99]).ready = true ∧ (small 0x4000#16 0#64 [10, 99]).resetIn = false
      ∧ ∀ rest, (small 0x4000#16 0#64 [10, 99]).script ≠ .assertReset :: rest :=
  ⟨⟨_, rfl, rfl⟩, rfl, rfl, fun _ h => by cases h⟩

theorem witness_ErrorsLeaveNothingBehind :
    (∃ t, exec (.encs 128#8) (small 0#16 0#64 []) = .next t ∧ t.responses = [] ++ [.error .invalidSeed])
      ∧ ∃ t, exec .dec (small 0#16 0#64 [10]) = .next t ∧ t.responses = [] ++ [.error .tooShort] :=
  ⟨⟨_, rfl, rfl⟩, ⟨_, rfl, rfl⟩⟩

/-- Two states of service with different histories: one has already answered. -/
theorem witness_ResponseDoesNotDependOnHistory :
    CodecInv (scripted []) ∧ CodecInv { scripted [] with responses := [.value 3#64, .error .tooShort] }
      ∧ (scripted []).ready = true ∧ ∃ t t', exec .dec (scripted []) = .next t
        ∧ exec .dec { scripted [] with responses := [.value 3#64, .error .tooShort] } = .next t' :=
  ⟨scripted_inv _ (by simp), { scripted_inv [] (by simp) with
      responsesFit := fun r h => by
        rcases List.mem_cons.mp h with rfl | h
        · trivial
        · rw [List.mem_singleton.mp h]
          trivial },
    rfl, _, _, exec_eq _ _, exec_eq _ _⟩

theorem witness_WaitingCommandIsServed :
    ({ State.reset with cmdValid := true } : State).script = []
      ∧ ({ State.reset with cmdValid := true } : State).resetIn = false ∧ (small 0x4000#16 0#64 []).cmdValid = true :=
  ⟨rfl, rfl, rfl⟩

/-- Two commands to present, the second with an illegal header. -/
def twoCommands : List Command :=
  [{ header := 0x2000#16, numIn := 7#64, symIn := [] }, { header := 0x0000#16, numIn := 0#64, symIn := [] }]

theorem witness_CommandsAreAnsweredInOrder :
    CodecInv { scripted (twoCommands.map HostAction.present) with cmdValid := false }
      ∧ ({ scripted (twoCommands.map HostAction.present) with cmdValid := false } : State).ready = true
      ∧ ({ scripted (twoCommands.map HostAction.present) with cmdValid := false } : State).resetIn = false :=
  have h := scripted_inv (twoCommands.map HostAction.present) (by
    intro c hc
    simp only [twoCommands, List.map_cons, List.map_nil, List.mem_cons, HostAction.present.injEq, List.not_mem_nil, or_false]
      at hc
    rcases hc with rfl | rfl <;> decide)
  ⟨⟨h.canonical, h.built, h.empty, h.portFits, h.scriptFits, h.responsesFit⟩, rfl, rfl⟩

theorem witness_ResponseCountsFitTheirFields :
    CodecInv { scripted [] with responses := [.strings [[0xAC00, 0xAC7F]], .error (.unknownSymbol 0x41)] }
      ∧ (Response.strings [[0xAC00, 0xAC7F]]).string? 0 = some [0xAC00, 0xAC7F]
      ∧ (Response.strings [[0xAC00, 0xAC7F]]).osym? 0 1 = some 0xAC7F
      ∧ (Response.error (.unknownSymbol 0x41)).esym? = some 0x41 :=
  ⟨{ scripted_inv [] (by simp) with
      responsesFit := fun r h => by
        rcases List.mem_cons.mp h with rfl | h
        · exact ⟨.inl rfl, fun str hs => by
            rw [List.mem_singleton.mp hs]
            exact ⟨by decide, by decide, fun c hc => by
              have : ∀ c ∈ [0xAC00, 0xAC7F], c ∈ rawT1.alpha := by decide +kernel
              exact this c hc⟩⟩
        · rw [List.mem_singleton.mp h]
          exact ⟨by decide, by decide +kernel⟩ },
    rfl, rfl, rfl⟩

theorem witness_EncsAnswersTheStringOrInvalidSeed : 128 ≤ (128#8 : SeedField).toNat := by decide

theorem witness_EncsRaisesInvalidSeedExactlyAbove127 :
    128 ≤ (128#8 : SeedField).toNat ∧ 128 ≤ (255#8 : SeedField).toNat
      ∧ ∃ t, exec (.encs 128#8) (small 0#16 0#64 []) = .next t ∧ t.responses = [] ++ [.error .invalidSeed] :=
  ⟨by decide, by decide, _, rfl, rfl⟩

theorem witness_EncsStringLengthIsOnePlusDigitCount :
    (127#8 : SeedField).toNat < 128 ∧ 128 ^ (2 - 1) ≤ (small 0#16 128#64 []).cmd.numIn.toNat
      ∧ (small 0#16 16383#64 []).cmd.numIn.toNat < 128 ^ 2 ∧ (small 0#16 0#64 []).cmd.numIn = 0#64 := by decide

theorem witness_EncsStringsNameTheirSeedAndNumber :
    ∃ t str, exec (.encs 127#8) (small 0#16 5#64 []) = .next t ∧ t.responses = [] ++ [.strings [str]]
      ∧ (127#8 : SeedField).toNat < 128 :=
  ⟨_, _, rfl, rfl, by decide⟩

/-- For the statements over the states of service: the round trips of ENCS, ENC and ENCALL. -/
theorem witness_DecodeOfEncodeReturnsTheNumber :
    CodecInv (scripted []) ∧ (scripted []).ready = true ∧ (127#8 : SeedField).toNat < 128 :=
  ⟨scripted_inv _ (by simp), rfl, by decide⟩
theorem witness_DecodeOfEncReturnsTheNumber : CodecInv (scripted []) ∧ (scripted []).ready = true :=
  ⟨scripted_inv _ (by simp), rfl⟩
theorem witness_EncallStringsAreEncsStringsAndDecode : CodecInv (scripted []) ∧ (scripted []).ready = true :=
  ⟨scripted_inv _ (by simp), rfl⟩

theorem witness_DecRaisesTooShortExactlyBelowTwoSymbols :
    (small 0#16 0#64 [99]).cmd.symIn.length < 2
      ∧ ∃ t, exec .dec (small 0#16 0#64 []) = .next t ∧ t.responses = [] ++ [.error .tooShort] := ⟨by decide, _, rfl, rfl⟩

theorem witness_DecRaisesUnknownSymbolOnTheSeedSymbol :
    (small 0#16 0#64 [99, 98]).cmd.symIn = 99 :: [98] ∧ [98] ≠ ([] : List SymCode)
      ∧ rmapLookup (small 0#16 0#64 [99, 98]).rmap 99 = none := by decide

theorem witness_DecRaisesUnknownSymbolOnTheFirstAbsentDigit :
    (small 0#16 0#64 [11, 12, 99, 98]).cmd.symIn = 11 :: ([12] ++ 99 :: [98])
      ∧ rmapLookup (small 0#16 0#64 []).rmap 11 = some 1#7
      ∧ [12].map (rmapLookup (small 0#16 0#64 []).rmap) = [2#7].map some
      ∧ digitsValue ([2#7].map (fun i => unscr i 1#7)) < 2 ^ 64 ∧ rmapLookup (small 0#16 0#64 []).rmap 99 = none := by decide

/-- Seed 0, digits 2 and then nine zeros: 2 * 128^8 fits, 2 * 128^9 = 2^64 does not. -/
theorem witness_DecRaisesAccOverflowAtTheFirstExcess :
    (small 0#16 0#64 (10 :: 12 :: (List.replicate 9 10 ++ [99]))).cmd.symIn
        = 10 :: ((12 :: List.replicate 8 10) ++ 10 :: [99])
      ∧ rmapLookup (small 0#16 0#64 []).rmap 10 = some 0#7
      ∧ (12 :: List.replicate 8 10).map (rmapLookup (small 0#16 0#64 []).rmap) = (2#7 :: List.replicate 8 0#7).map some
      ∧ digitsValue ((2#7 :: List.replicate 8 0#7).map (fun i => unscr i 0#7)) < 2 ^ 64
      ∧ 2 ^ 64 ≤ digitsValue (((2#7 :: List.replicate 8 0#7) ++ [0#7]).map (fun i => unscr i 0#7)) := by decide

theorem witness_DecReturnsTheValueOfTheDigits :
    (small 0#16 0#64 [11, 10]).cmd.symIn = 11 :: [10] ∧ [10] ≠ ([] : List SymCode)
      ∧ rmapLookup (small 0#16 0#64 []).rmap 11 = some 1#7
      ∧ [10].map (rmapLookup (small 0#16 0#64 []).rmap) = [0#7].map some
      ∧ digitsValue ([0#7].map (fun i => unscr i 1#7)) < 2 ^ 64 := by decide

theorem witness_DecIgnoresLeadingZeroDigits :
    rmapLookup (small 0#16 0#64 []).rmap 11 = some 1#7 ∧ [12] ≠ ([] : List SymCode) := by decide

/-- Both clauses: 1 becomes 128 + 2, and 2^57 overflows with one more symbol. -/
theorem witness_DecOfOneMoreSymbolShiftsTheValue :
    (∃ t, exec .dec (small 0#16 0#64 [10, 11]) = .next t ∧ t.responses = [] ++ [.value 1#64])
      ∧ rmapLookup (small 0#16 0#64 []).rmap 10 = some 0#7 ∧ rmapLookup (small 0#16 0#64 []).rmap 12 = some 2#7
      ∧ (1#64 : Num64).toNat * 128 + (unscr 2#7 0#7).toNat < 2 ^ 64
      ∧ (∃ t, exec .dec (small 0#16 0#64 (10 :: 12 :: List.replicate 8 10)) = .next t
          ∧ t.responses = [] ++ [.value 144115188075855872#64])
      ∧ 2 ^ 64 ≤ (144115188075855872#64 : Num64).toNat * 128 + (unscr 0#7 0#7).toNat :=
  ⟨⟨_, rfl, rfl⟩, by decide, by decide, by decide, ⟨_, rfl, rfl⟩, by decide⟩

theorem witness_OnlyDecodeOverflowRecordsAFault :
    (∃ t, exec .dec (small 0#16 0#64 (10 :: 12 :: List.replicate 9 10)) = .next t
        ∧ t.recordedFaults = [Fault.accOverflow])
      ∧ ∃ t, exec .enc (small 0#16 0#64 []) = .next t :=
  ⟨⟨_, rfl, rfl⟩, ⟨_, rfl⟩⟩

end Sys2Proof.Tests
end

section
/-! The configuration check (R94): what it accepts, and what it builds. -/

namespace Sys2Proof

/-- "Pairwise distinct" of R10 said by position: no value stands at two places of the list. -/
theorem nodup_iff_getElem?_eq_some_unique {α : Type} {l : List α} :
    l.Nodup ↔ ∀ i j : Nat, ∀ a, l[i]? = some a → l[j]? = some a → i = j := by
  constructor
  · intro hnodup i j a hi hj
    obtain ⟨hlt, -⟩ := List.getElem?_eq_some_iff.mp hi
    exact (List.getElem?_inj hlt hnodup).mp (hi.trans hj.symm)
  · intro huniq
    refine List.nodup_iff_getElem?_ne_getElem?.mpr fun i j hij hj heq => hij.ne ?_
    have hsome : l[j]? = some l[j] := List.getElem?_eq_getElem hj
    exact huniq i j l[j] (heq.trans hsome) hsome

/-- The Boolean check as the list of the constraints of R4, R10 and R94. -/
theorem RawConfig.wf_iff (c : RawConfig) :
    c.wf = true ↔ 7 ≤ c.symW ∧ 4 ≤ c.lenW ∧ c.alpha.length = 128 ∧ (∀ a ∈ c.alpha, a < 2 ^ c.symW)
      ∧ c.alpha.Nodup := by
  simp only [RawConfig.wf, Bool.and_eq_true, decide_eq_true_eq, List.all_eq_true, and_assoc]

/-- The check builds exactly the configuration that carries the given parameters, and only that one. -/
theorem Config.ofRaw?_eq_some_iff (c : RawConfig) (cfg : Config) :
    Config.ofRaw? c = some cfg ↔ cfg.raw = c := by
  obtain ⟨raw, hraw⟩ := cfg
  simp only [Config.ofRaw?]
  split
  next => simp only [Option.some.injEq, Config.mk.injEq, eq_comm]
  next hbad =>
    have hne : raw ≠ c := fun heq => hbad (heq ▸ hraw)
    simp only [reduceCtorEq, hne]

theorem Config.exists_ofRaw?_iff (c : RawConfig) : (∃ cfg, Config.ofRaw? c = some cfg) ↔ c.wf = true := by
  simp only [Config.ofRaw?_eq_some_iff]
  exact ⟨fun ⟨cfg, hraw⟩ => hraw ▸ cfg.ok, fun hwf => ⟨⟨c, hwf⟩, rfl⟩⟩

/-- Settles O13: the check is the conjunction of R94's constraints, with distinctness read by index, and what it builds
carries the given parameters. -/
theorem onlyWellFormedConfigurationsAreBuilt : Obligations.OnlyWellFormedConfigurationsAreBuilt := by
  intro c
  constructor
  · rw [Config.exists_ofRaw?_iff, RawConfig.wf_iff, nodup_iff_getElem?_eq_some_unique]
  · exact fun cfg => (Config.ofRaw?_eq_some_iff c cfg).mp

end Sys2Proof
end

section
/-! The persistent state (R10 to R13, R20): what a step can do to ALPHA, RMAP and READY, said once, and what follows. -/

namespace Sys2Proof.Machine

/-- What a step can do to `RMAP` and `READY`: keep both, clear `READY` under reset or by asserting it, or run BUILD (R12, R13). -/
inductive TablesStep (s t : State) : Prop
  | kept (hrmap : t.rmap = s.rmap) (hready : t.ready = s.ready)
  | cleared (hcause : s.resetIn = true ∨ ∃ rest, s.script = .assertReset :: rest) (hready : t.ready = false)
  | built (hreset : s.resetIn = false) (hbefore : s.ready = false)
      (hrmap : t.rmap = buildEntries s.cfg s.rmap (List.range Config.radix)) (hready : t.ready = true)

theorem exec_tables {i : Instr} {s t : State} (h : exec i s = .next t) :
    t.cfg = s.cfg ∧ t.rmap = s.rmap ∧ t.ready = s.ready := by
  simp [exec_next h]

/-- A move of the block does not depend on the script that is left for the turns after it. -/
theorem codecMove_tables {s t : State} {script : List HostAction}
    (h : codecMove { s with script := script } = .next t) : t.cfg = s.cfg ∧ TablesStep s t := by
  rcases codecMove_cases h with ⟨hreset, rfl⟩ | ⟨hreset, hbefore, rfl⟩ | ⟨-, -, -, -, rfl⟩ | ⟨-, -, -, i, -, rfl⟩
    | ⟨-, -, -, rfl⟩
  · exact ⟨rfl, .cleared (.inl hreset) rfl⟩
  · exact ⟨by simp, .built hreset hbefore (by simp) (by simp)⟩
  · exact ⟨rfl, .kept rfl rfl⟩
  · exact ⟨by simp, .kept (by simp) (by simp)⟩
  · exact ⟨rfl, .kept rfl rfl⟩

theorem step_tables {s t : State} (h : step s = .next t) : t.cfg = s.cfg ∧ TablesStep s t := by
  rcases step_cases h with ⟨c, rest, -, -, rfl⟩ | ⟨r, rest, -, rfl⟩ | ⟨rest, hscript, rfl⟩ | ⟨rest, -, rfl⟩
    | ⟨script, -, hmove⟩
  · exact ⟨rfl, .kept rfl rfl⟩
  · exact ⟨rfl, .kept rfl rfl⟩
  · exact ⟨rfl, .cleared (.inr ⟨rest, hscript⟩) rfl⟩
  · exact ⟨rfl, .kept rfl rfl⟩
  · exact codecMove_tables hmove

/-- The first step after reset is BUILD (R170). -/
theorem step_reset : step State.reset = .next State.reset.build :=
  (step_nil rfl).trans (codecMove_build rfl rfl)

/-- Settles O14: the configuration carries the constraints of R10, and `cfg` is what no step writes. -/
theorem alphabetIsDistinctAndReadOnly : Obligations.AlphabetIsDistinctAndReadOnly :=
  ⟨fun cfg => ⟨cfg.alpha_length, fun i => ⟨alphaRead_getElem? cfg i, alphaRead_lt cfg i⟩,
      fun _ _ => alphaRead_injective cfg⟩,
    fun _ _ h => (step_tables h).1⟩

/-- Settles O21, by what a step can do to `READY`. -/
theorem readyIsSetByBuildAndClearedByReset : Obligations.ReadyIsSetByBuildAndClearedByReset := by
  refine ⟨fun s t h hbefore hafter => ?_, fun s t h hbefore hafter => ?_, fun i s t h => ?_⟩
  · cases (step_tables h).2 with
    | kept _ hready => simp [hready, hbefore] at hafter
    | cleared _ hready => simp [hready] at hafter
    | built hreset _ hrmap _ => exact ⟨hreset, hrmap.trans (State.build_rmap s).symm⟩
  · cases (step_tables h).2 with
    | kept _ hready => simp [hready, hbefore] at hafter
    | cleared hcause _ => exact hcause
    | built _ _ _ hready => simp [hready] at hafter
  · obtain ⟨-, -, hready⟩ := exec_tables h
    exact hready

/-- Settles O27: a command keeps the tables; with `READY` = 1 a step could only clear them, under reset or by asserting it. -/
theorem commandsLeavePersistentStateUnchanged : Obligations.CommandsLeavePersistentStateUnchanged := by
  refine ⟨fun i s t => exec_tables, fun s t h hbefore hreset hnone => ?_⟩
  obtain ⟨hcfg, htables⟩ := step_tables h
  cases htables with
  | kept hrmap hready => exact ⟨hcfg, hrmap, hready⟩
  | cleared hcause _ =>
    rcases hcause with hasserted | ⟨rest, hscript⟩
    · simp [hreset] at hasserted
    · exact absurd hscript (hnone rest)
  | built _ hbusy _ _ => simp [hbefore] at hbusy

/-- Settles O17: State.reset as it stands, then BUILD from the empty map. -/
theorem resetLeavesTheMapEmptyAndBuildFillsIt : Obligations.ResetLeavesTheMapEmptyAndBuildFillsIt := by
  refine ⟨fun _ => rfl, rfl, rfl, State.reset.build, step_reset, State.build_ready _, State.build_cfg _, ?_⟩
  rw [State.build_cfg, State.build_rmap]
  exact mapBuilt_buildEntries Config.installed

end Sys2Proof.Machine
end

section
/-! The canonical form of the reverse map (log entry 11): a map is determined by its lookups. -/

namespace Sys2Proof.Machine

/-- In canonical form each code stands once, so the entries of the map are exactly what its lookups find. -/
theorem Rmap.wf.mem_iff_rmapLookup {m : Rmap} (h : Rmap.wf m) (sym : SymCode) (i : Index7) :
    (sym, i) ∈ m ↔ rmapLookup m sym = some i := by
  induction m with
  | nil => simp [rmapLookup]
  | cons p m ih =>
    obtain ⟨k, j⟩ := p
    obtain ⟨hk, hm⟩ := List.pairwise_cons.mp h
    rw [List.mem_cons, rmapLookup, ih hm]
    by_cases heq : sym = k
    · subst heq
      simp [rmapLookup_none_of_lt hk, eq_comm]
    · simp [heq]

/-- Settles O16: strictly rising lists with the same entries are equal. -/
theorem canonicalMapsWithEqualLookupsAreEqual : Obligations.CanonicalMapsWithEqualLookupsAreEqual := by
  intro m m' hm hm' hlookup
  have hirrefl : Std.Irrefl (fun a b : SymCode × Index7 => a.1 < b.1) := ⟨fun _ => Nat.lt_irrefl _⟩
  have hantisymm : Std.Antisymm (fun a b : SymCode × Index7 => a.1 < b.1) :=
    ⟨fun _ _ hab hba => absurd hba (Nat.lt_asymm hab)⟩
  refine List.Pairwise.eq_of_mem_iff hm hm' fun ⟨sym, i⟩ => ?_
  rw [hm.mem_iff_rmapLookup, hm'.mem_iff_rmapLookup, hlookup]

end Sys2Proof.Machine
end

section
/-! The response to a command as a function of the command, the alphabet and the draw alone (R13, R127, R160). -/

namespace Sys2Proof.Machine

/-- A response reads the state through the configuration, the command, the seed source and the lookups of the map. -/
theorem execResponse_congr {s s' : State} (i : Instr) (hcfg : s.cfg = s'.cfg) (hcmd : s.cmd = s'.cmd)
    (hseed : s.seedSrc = s'.seedSrc) (hlookup : ∀ sym, rmapLookup s.rmap sym = rmapLookup s'.rmap sym) :
    execResponse i s = execResponse i s' := by
  cases i with
  | encs seed => simp only [execResponse, hcfg, hcmd]
  | enc => simp only [execResponse, hcfg, hcmd, hseed]
  | encall => simp only [execResponse, hcfg, hcmd]
  | dec => simp only [execResponse, hcmd, decodeString_congr hlookup]

/-- Settles O30: both maps hold the two lines of R11 for one alphabet, so every lookup agrees. -/
theorem responseDoesNotDependOnHistory : Obligations.ResponseDoesNotDependOnHistory := by
  intro i s s' t t' hinv hinv' hready hready' hcfg hcmd hseed h h'
  have hbuilt' : MapBuilt s.cfg s'.rmap := hcfg ▸ hinv'.built hready'
  have hsame : execResponse i s = execResponse i s' :=
    execResponse_congr i hcfg hcmd hseed ((hinv.built hready).lookup_eq hbuilt')
  exact ⟨execResponse i s, by simp [exec_next h], by simp [exec_next h', hsame]⟩

/-- With the map of R11 a legal command gets the answer that `answer` computes over a map built from nothing. -/
theorem execResponse_eq_answer {i : Instr} {s : State} (hbuilt : MapBuilt s.cfg s.rmap)
    (hdecode : decode s.cmd.header = .ok i) : execResponse i s = answer s.cfg s.cmd s.seedSrc := by
  have hlookup := hbuilt.lookup_eq (mapBuilt_buildEntries s.cfg)
  cases i with
  | encs seed => simp only [execResponse, answer, hdecode]
  | enc => simp only [execResponse, answer, hdecode]
  | encall => simp only [execResponse, answer, hdecode]
  | dec =>
    cases hdec : decodeString (buildEntries s.cfg [] (List.range Config.radix)) s.cmd.symIn with
    | ok v => simp only [execResponse, answer, hdecode, decodeString_congr hlookup, hdec]
    | error e => simp only [execResponse, answer, hdecode, decodeString_congr hlookup, hdec]

/-- In service the block answers the command at the port as it would alone; before that, ENC takes its draw and nothing else
happens. -/
theorem codecMove_answer {s : State} (hbuilt : MapBuilt s.cfg s.rmap) (hreset : s.resetIn = false)
    (hready : s.ready = true) (hvalid : s.cmdValid = true) :
    ∃ u, (u = s ∨ u = s.afterDraw) ∧ codecMove s = .next (u.respond (answer s.cfg s.cmd s.seedSrc)) := by
  cases hdecode : decode s.cmd.header with
  | error e =>
    refine ⟨s, .inl rfl, (codecMove_error hreset hready hvalid hdecode).trans ?_⟩
    simp only [answer, hdecode, State.raise]
  | ok i =>
    have hsource : execSource i s = s ∨ execSource i s = s.afterDraw := by
      cases i with
      | enc => exact .inr rfl
      | encs | encall | dec => exact .inl rfl
    refine ⟨execSource i s, hsource, ?_⟩
    rw [← execResponse_eq_answer hbuilt hdecode, ← exec_eq]
    exact codecMove_ok hreset hready hvalid hdecode

end Sys2Proof.Machine
end

section
/-! Commands presented one after another (R160): each takes one turn to be presented and one to be performed. -/

namespace Sys2Proof.Machine

/-- The block in service with nothing at the port, and a host that will present exactly these commands. -/
structure AwaitsCommands (s : State) (cs : List Command) : Prop where
  built : MapBuilt s.cfg s.rmap
  ready : s.ready = true
  released : s.resetIn = false
  free : s.cmdValid = false
  script : s.script = cs.map HostAction.present

theorem AwaitsCommands.step_present {s : State} {c : Command} {cs : List Command} (h : AwaitsCommands s (c :: cs)) :
    step s = .next (State.presentCommand { s with script := cs.map HostAction.present } c) := by
  simp only [step, turn, h.script, h.free, List.map_cons, Bool.false_eq_true, if_false, State.drive_present]

/-- With a command at the port the turn is the block's, whether the host has nothing left or would present another. -/
theorem step_busy {s : State} {cs : List Command} (hscript : s.script = cs.map HostAction.present)
    (hbusy : s.cmdValid = true) : step s = codecMove s := by
  cases cs with
  | nil => exact step_nil hscript
  | cons c cs => exact step_present_busy hscript hbusy

/-- The first command presented is answered in two steps, and the block awaits the others with its tables as they were. -/
theorem AwaitsCommands.serve {s : State} {c : Command} {cs : List Command} (h : AwaitsCommands s (c :: cs)) :
    ∃ u t, step s = .next u ∧ step u = .next t ∧ AwaitsCommands t cs
      ∧ t.responses = s.responses ++ [answer s.cfg c s.seedSrc] ∧ t.cfg = s.cfg ∧ t.rmap = s.rmap := by
  obtain ⟨v, hv, hmove⟩ := codecMove_answer
    (s := State.presentCommand { s with script := cs.map HostAction.present } c) h.built h.released h.ready rfl
  refine ⟨_, _, h.step_present, (step_busy rfl rfl).trans hmove, ?_⟩
  rcases hv with rfl | rfl
  · exact ⟨⟨h.built, h.ready, h.released, rfl, rfl⟩, rfl, rfl, rfl⟩
  · exact ⟨⟨h.built, h.ready, h.released, rfl, rfl⟩, rfl, rfl, rfl⟩

/-- Every list of presented commands is answered in order, two steps a command. -/
theorem AwaitsCommands.run {s : State} {cs : List Command} (h : AwaitsCommands s cs) :
    ∃ (t : State) (rs : List Index7), Host.Core.run Sys2Proof.core (2 * cs.length) s = .next t
      ∧ rs.length = cs.length ∧ t.responses = s.responses ++ List.zipWith (answer s.cfg) cs rs
      ∧ t.cfg = s.cfg ∧ t.rmap = s.rmap ∧ AwaitsCommands t [] := by
  induction cs generalizing s with
  | nil => exact ⟨s, [], rfl, rfl, by simp, rfl, rfl, h⟩
  | cons c cs ih =>
    obtain ⟨u, v, hpresent, hperform, hawaits, hresponses, hcfg, hrmap⟩ := h.serve
    obtain ⟨t, rs, hrun, hlength, hrest, hcfg', hrmap', hdone⟩ := ih hawaits
    refine ⟨t, s.seedSrc :: rs, ?_, by simp [hlength], ?_, hcfg'.trans hcfg, hrmap'.trans hrmap, hdone⟩
    · rw [List.length_cons, Nat.mul_succ, run_next hpresent, run_next hperform, hrun]
    · rw [hrest, hresponses, hcfg, List.zipWith_cons_cons, List.append_assoc, List.singleton_append]

/-- Settles O33, by induction on the commands still to be presented. -/
theorem commandsAreAnsweredInOrder : Obligations.CommandsAreAnsweredInOrder := by
  intro s cs hinv hready hreleased hfree hscript
  obtain ⟨t, rs, hrun, hlength, hresponses, hcfg, hrmap, hdone⟩ :=
    AwaitsCommands.run ⟨hinv.built hready, hready, hreleased, hfree, hscript⟩
  exact ⟨t, rs, hrun, hlength, hresponses, hcfg, hrmap, hdone.ready, hdone.free, hdone.script⟩

end Sys2Proof.Machine
end

section
/-! Responses within their widths (R56). -/

namespace Sys2Proof.Machine

/-- A 64-bit integer has 1 to `MAX_DIGITS` base-128 digits (R74). -/
theorem base128_length_bounds (n : Num64) :
    1 ≤ (base128 n.toNat).length ∧ (base128 n.toNat).length ≤ Config.maxDigits := by
  have hfits : n.toNat < 128 ^ Config.maxDigits := Nat.lt_trans n.isLt (by decide)
  rw [base128]
  split
  next => decide
  next hne =>
    rw [List.length_reverse, Nat.digits_length_le_iff (by decide)]
    exact ⟨List.length_pos_iff.mpr (Nat.digits_ne_nil_iff_ne_zero.mpr hne), hfits⟩

theorem encodeString_length_bounds (cfg : Config) (num : Num64) (seed : Index7) :
    Config.minLen ≤ (encodeString cfg num seed).length ∧ (encodeString cfg num seed).length ≤ Config.maxEncLen := by
  obtain ⟨hmin, hmax⟩ := base128_length_bounds num
  rw [encodeString_length]
  exact ⟨Nat.add_le_add_left hmin 1, Nat.add_le_add_left hmax 1⟩

/-- One or 128 encoded strings make a response within its widths. -/
theorem Response.strings_wf {cfg : Config} {num : Num64} {out : List (List SymCode)}
    (hcount : out.length = 1 ∨ out.length = Config.nSeeds)
    (hencoded : ∀ str ∈ out, ∃ seed, encodeString cfg num seed = str) : (Response.strings out).wf cfg := by
  refine ⟨hcount, fun str hstr => ?_⟩
  obtain ⟨seed, rfl⟩ := hencoded str hstr
  obtain ⟨hmin, hmax⟩ := encodeString_length_bounds cfg num seed
  exact ⟨hmin, hmax, fun c => encodeString_mem cfg num seed⟩

theorem encsResponse_wf (cfg : Config) (num : Num64) (seed : SeedField) : (encsResponse cfg num seed).wf cfg := by
  rw [encsResponse]
  split
  · exact Response.strings_wf (.inl rfl) fun str hstr => ⟨seedLow seed, (List.mem_singleton.mp hstr).symm⟩
  · trivial

theorem encodeAll_wf (cfg : Config) (num : Num64) : (Response.strings (encodeAll cfg num)).wf cfg := by
  refine Response.strings_wf (num := num) (.inr (by simp [encodeAll])) fun str hstr => ?_
  obtain ⟨j, -, rfl⟩ := List.mem_map.mp hstr
  exact ⟨BitVec.ofNat 7 j, rfl⟩

/-- DEC names only a symbol of its operand, and one that the map does not hold. -/
theorem decodeString_unknownSymbol {m : Rmap} {str : List SymCode} {c : SymCode}
    (h : decodeString m str = .error (.unknownSymbol c)) : c ∈ str ∧ rmapLookup m c = none := by
  match str with
  | [] => simp [decodeString] at h
  | [_] => simp [decodeString] at h
  | sd :: d :: ds =>
    rw [decodeString_cons m sd (List.cons_ne_nil d ds)] at h
    cases hseed : rmapLookup m sd with
    | none =>
      simp only [hseed, Except.error.injEq, CodecError.unknownSymbol.injEq] at h
      subst h
      exact ⟨List.mem_cons_self, hseed⟩
    | some seed =>
      simp only [hseed] at h
      rcases decodeLoop_cases m seed (d :: ds) 0#64 with ⟨v, hv, -⟩ | ⟨c', hc', hmem, hnone⟩ | hover
      · simp [hv] at h
      · simp only [hc', Except.error.injEq, CodecError.unknownSymbol.injEq] at h
        subst h
        exact ⟨List.mem_cons_of_mem _ hmem, hnone⟩
      · simp [hover] at h

/-- An operand that fits the port holds only `SYM_W`-bit codes (R55). -/
theorem stringFits_lt {cfg : Config} {str : List SymCode} (h : stringFits cfg str = true) {c : SymCode} (hc : c ∈ str) :
    c < 2 ^ cfg.raw.symW := by
  simp only [stringFits, Bool.and_eq_true, List.all_eq_true, decide_eq_true_eq] at h
  exact h.1 c hc

/-- In service every command's response is within its widths. -/
theorem execResponse_wf {s : State} (i : Instr) (hbuilt : MapBuilt s.cfg s.rmap) (hfits : s.cmd.wf s.cfg = true) :
    (execResponse i s).wf s.cfg := by
  cases i with
  | encs seed => exact encsResponse_wf _ _ _
  | enc => exact encsResponse_wf _ _ _
  | encall => exact encodeAll_wf _ _
  | dec =>
    simp only [execResponse]
    cases hdec : decodeString s.rmap s.cmd.symIn with
    | ok v => trivial
    | error e =>
      cases e with
      | unknownSymbol c =>
        obtain ⟨hmem, hnone⟩ := decodeString_unknownSymbol hdec
        exact ⟨stringFits_lt hfits hmem, (hbuilt.lookup_none_iff c).mp hnone⟩
      | invalidSeed | tooShort | accOverflow | illegalCmd => trivial

end Sys2Proof.Machine
end

section
/-! The invariant of the machine: one lemma per operation on the state, then the move of the block, then the step. -/

namespace Sys2Proof.Machine

/-- What is left of the script when the block has the turn is part of it. -/
theorem BlockTurn.subset {s : State} {script : List HostAction} (h : BlockTurn s script) : script ⊆ s.script := by
  rcases h with ⟨-, rfl⟩ | hwait | ⟨c, rest, -, -, rfl⟩
  · exact List.nil_subset _
  · rw [hwait]
    exact List.subset_cons_self _ _
  · exact List.Subset.refl _

variable {s : State}

theorem CodecInv.withScript (h : CodecInv s) {script : List HostAction} (hsub : script ⊆ s.script) :
    CodecInv { s with script := script } :=
  { h with scriptFits := fun c hc => h.scriptFits c (hsub hc) }

theorem CodecInv.presentCommand (h : CodecInv s) {c : Command} (hfits : c.wf s.cfg = true) :
    CodecInv (s.presentCommand c) :=
  { h with portFits := hfits }

theorem CodecInv.driveSeed (h : CodecInv s) (r : Index7) : CodecInv { s with seedSrc := r } := { h with }

theorem CodecInv.driveReset (h : CodecInv s) (b : Bool) : CodecInv { s with resetIn := b } := { h with }

theorem CodecInv.applyReset (h : CodecInv s) : CodecInv s.applyReset :=
  { h with
    canonical := List.Pairwise.nil
    built := fun hready => by simp at hready
    empty := fun _ => rfl }

/-- BUILD starts from the empty map that the invariant gives with `READY` = 0. -/
theorem CodecInv.build (h : CodecInv s) (hready : s.ready = false) : CodecInv s.build where
  canonical := by
    rw [State.build_rmap]
    exact buildEntries_wf s.cfg _ h.canonical
  built := fun _ => by
    rw [State.build_rmap, State.build_cfg, h.empty hready]
    exact mapBuilt_buildEntries s.cfg
  empty := fun hoff => by simp at hoff
  portFits := by simpa using h.portFits
  scriptFits := by simpa using h.scriptFits
  responsesFit := by simpa using h.responsesFit

theorem CodecInv.respond (h : CodecInv s) {r : Response} (hr : r.wf s.cfg) : CodecInv (s.respond r) :=
  { h with
    responsesFit := fun r' hr' => by
      rcases List.mem_append.mp hr' with hold | hnew
      · exact h.responsesFit r' hold
      · exact List.mem_singleton.mp hnew ▸ hr }

theorem CodecInv.execSource (h : CodecInv s) (i : Instr) : CodecInv (execSource i s) := by
  cases i with
  | enc => exact { h with }
  | encs | encall | dec => exact h

/-- A move of the block keeps the invariant. -/
theorem CodecInv.codecMove (h : CodecInv s) {t : State} (hmove : codecMove s = .next t) : CodecInv t := by
  rcases codecMove_cases hmove with ⟨-, rfl⟩ | ⟨-, hready, rfl⟩ | ⟨-, -, -, -, rfl⟩ | ⟨-, hready, -, i, -, rfl⟩
    | ⟨-, -, -, rfl⟩
  · exact h.applyReset
  · exact h.build hready
  · exact h.respond (r := .error .illegalCmd) trivial
  · have hwf := execResponse_wf i (h.built hready) h.portFits
    exact (h.execSource i).respond (by simpa using hwf)
  · exact h

/-- A step keeps the invariant: an outside action changes its own lines, or the block moves. -/
theorem CodecInv.step (h : CodecInv s) {t : State} (hstep : step s = .next t) : CodecInv t := by
  have hrest {a : HostAction} {rest : List HostAction} (hscript : s.script = a :: rest) :
      CodecInv { s with script := rest } :=
    h.withScript (hscript ▸ List.subset_cons_self a rest)
  rcases step_cases hstep with ⟨c, rest, hscript, -, rfl⟩ | ⟨r, rest, hscript, rfl⟩ | ⟨rest, hscript, rfl⟩
    | ⟨rest, hscript, rfl⟩ | ⟨script, hturn, hmove⟩
  · exact (hrest hscript).presentCommand (h.scriptFits c (hscript ▸ List.mem_cons_self))
  · exact (hrest hscript).driveSeed r
  · exact (hrest hscript).applyReset.driveReset true
  · exact (hrest hscript).driveReset false
  · exact (h.withScript hturn.subset).codecMove hmove

end Sys2Proof.Machine
end

section
/-! The invariant holds at reset and every step keeps it. -/

namespace Sys2Proof.Machine

/-- Settles O23, by the agent that has the turn and what the block finds. -/
theorem everyStepKeepsTheInvariant : Obligations.EveryStepKeepsTheInvariant :=
  fun _ _ h hstep => h.step hstep

/-- Settles O22: nothing is built, presented, scripted or answered yet. -/
theorem resetStateMeetsTheInvariant : Obligations.ResetStateMeetsTheInvariant where
  canonical := reset_rmap_wf
  built := fun hready => by simp [State.reset] at hready
  empty := fun _ => rfl
  portFits := by simp [State.reset, Command.wf, stringFits]
  scriptFits := fun _ hc => absurd hc List.not_mem_nil
  responsesFit := fun _ hr => absurd hr List.not_mem_nil

end Sys2Proof.Machine
end

section
/-! The command header (R52, R53, R59): its three fields, the header of each command, and which headers are illegal. -/

namespace Sys2Proof

theorem headerOp_append (op rsv : BitVec 4) (seed : SeedField) : headerOp (op ++ (rsv ++ seed)) = op :=
  BitVec.extractLsb'_append_eq_left

theorem headerRsv_append (op rsv : BitVec 4) (seed : SeedField) : headerRsv (op ++ (rsv ++ seed)) = rsv := by
  rw [headerRsv, BitVec.extractLsb'_append_eq_of_add_le (by decide)]
  exact BitVec.extractLsb'_append_eq_left

theorem headerSeed_append (op rsv : BitVec 4) (seed : SeedField) : headerSeed (op ++ (rsv ++ seed)) = seed := by
  rw [headerSeed, BitVec.extractLsb'_append_eq_of_add_le (by decide)]
  exact BitVec.extractLsb'_append_eq_right

/-- The three fields are the whole header (R52). -/
theorem append_header_fields (w : Header) : headerOp w ++ (headerRsv w ++ headerSeed w) = w := by
  have hlow : headerRsv w ++ headerSeed w = w.extractLsb' 0 12 := BitVec.extractLsb'_append_extractLsb'_eq_extractLsb' rfl
  have hall : headerOp w ++ w.extractLsb' 0 12 = w.extractLsb' 0 16 :=
    BitVec.extractLsb'_append_extractLsb'_eq_extractLsb' rfl
  rw [hlow, hall, BitVec.extractLsb'_eq_self]

theorem append_eq_header_iff (w : Header) (op rsv : BitVec 4) (seed : SeedField) :
    op ++ (rsv ++ seed) = w ↔ headerOp w = op ∧ headerRsv w = rsv ∧ headerSeed w = seed := by
  constructor
  · rintro rfl
    exact ⟨headerOp_append op rsv seed, headerRsv_append op rsv seed, headerSeed_append op rsv seed⟩
  · rintro ⟨rfl, rfl, rfl⟩
    exact append_header_fields w

/-- The header of a command, read back: its opcode, no reserved bit, its seed. -/
theorem encode_eq_iff (i : Instr) (w : Header) :
    encode i = w ↔ headerOp w = opcodeOf i ∧ headerRsv w = 0#4 ∧ headerSeed w = seedFieldOf i :=
  append_eq_header_iff w (opcodeOf i) 0#4 (seedFieldOf i)

theorem seedless_eq_ok_iff (w : Header) (i j : Instr) : seedless w i = .ok j ↔ headerSeed w = 0#8 ∧ i = j := by
  rw [seedless]
  split
  next hseed => simp [hseed]
  next hseed => simp [hseed]

theorem decode_encode (i : Instr) : decode (encode i) = .ok i := by
  obtain ⟨hop, hrsv, hseed⟩ := (encode_eq_iff i _).mp rfl
  cases i with
  | encs seed => simp [decode, hop, hrsv, hseed, opcodeOf, seedFieldOf]
  | enc | encall | dec => simp [decode, hop, hrsv, hseed, opcodeOf, seedFieldOf, seedless_eq_ok_iff]

/-- Each row of the opcode map that accepts a header accepts it for all of its bits. -/
theorem encode_of_decode {w : Header} {i : Instr} (h : decode w = .ok i) : encode i = w := by
  rw [encode_eq_iff]
  unfold decode at h
  split at h
  next hrsv =>
    split_ifs at h with hencs henc hencall hdec
    · obtain rfl := Except.ok.inj h
      exact ⟨hencs, hrsv, rfl⟩
    · obtain ⟨hseed, rfl⟩ := (seedless_eq_ok_iff _ _ _).mp h
      exact ⟨henc, hrsv, hseed⟩
    · obtain ⟨hseed, rfl⟩ := (seedless_eq_ok_iff _ _ _).mp h
      exact ⟨hencall, hrsv, hseed⟩
    · obtain ⟨hseed, rfl⟩ := (seedless_eq_ok_iff _ _ _).mp h
      exact ⟨hdec, hrsv, hseed⟩
  next => cases h

theorem encode_enc : encode .enc = 0x2000#16 := by decide
theorem encode_encall : encode .encall = 0x3000#16 := by decide
theorem encode_dec : encode .dec = 0x4000#16 := by decide

/-- Settles O1: both directions compare the three fields of the header. -/
theorem decodeAndEncodeAreInverse : Obligations.DecodeAndEncodeAreInverse :=
  ⟨decode_encode, fun _ _ => encode_of_decode⟩

theorem decode_eq_ok_iff (w : Header) (i : Instr) : decode w = .ok i ↔ encode i = w :=
  ⟨encode_of_decode, fun h => h ▸ decode_encode i⟩

/-- The mask of ENCS clears the seed and keeps the rest. -/
theorem header_and_FF00 (w : Header) : w &&& 0xFF00#16 = headerOp w ++ (headerRsv w ++ 0#8) := by
  have hmask : 0xFF00#16 = BitVec.allOnes 4 ++ (BitVec.allOnes 4 ++ 0#8) := by decide
  conv_lhs => rw [← append_header_fields w, hmask]
  rw [BitVec.and_append, BitVec.and_append, BitVec.and_allOnes, BitVec.and_allOnes, BitVec.and_zero]

theorem header_and_FFFF (w : Header) : w &&& 0xFFFF#16 = w := BitVec.and_allOnes

/-- The row of ENCS in R53: `CMD AND 0xFF00 = 0x1000` with any seed. -/
theorem decode_eq_encs_iff (w : Header) (seed : SeedField) :
    decode w = .ok (.encs seed) ↔ w &&& 0xFF00#16 = 0x1000#16 ∧ seed = headerSeed w := by
  have hmatch : 0x1000#16 = 1#4 ++ (0#4 ++ 0#8) := by decide
  rw [decode_eq_ok_iff, encode_eq_iff, header_and_FF00, hmatch, append_eq_header_iff, headerOp_append, headerRsv_append,
    headerSeed_append]
  simp only [opcodeOf, seedFieldOf, true_and, and_assoc, eq_comm]

/-- The rows of the commands without a seed in R53: the whole header is the match. -/
theorem decode_eq_ok_iff_and_FFFF {w : Header} {i : Instr} {word : Header} (hword : encode i = word) :
    decode w = .ok i ↔ w &&& 0xFFFF#16 = word := by
  rw [decode_eq_ok_iff, header_and_FFFF, hword, eq_comm]

/-- Settles O2: the row of ENCS compares opcode and reserved bits, the other rows the whole header. -/
theorem headerSelectsByMaskAndMatch : Obligations.HeaderSelectsByMaskAndMatch := fun w =>
  ⟨decode_eq_encs_iff w, decode_eq_ok_iff_and_FFFF encode_enc, decode_eq_ok_iff_and_FFFF encode_encall,
    decode_eq_ok_iff_and_FFFF encode_dec⟩

/-- Settles O3: the commands' words are their encodings, the other three are refused by their first failing check. -/
theorem sampleHeadersDecode : Obligations.SampleHeadersDecode :=
  ⟨decode_encode (.encs 100#8), decode_encode (.encs 200#8), decode_encode .enc, decode_encode .encall,
    decode_encode .dec, by decide, by decide, by decide⟩

/-- The legal headers: reserved bits zero, and the opcode of ENCS or one of the others with no seed. -/
theorem exists_decode_eq_ok_iff (w : Header) : (∃ i, decode w = .ok i) ↔
    headerRsv w = 0#4 ∧ (headerOp w = 1#4 ∨ headerOp w ∈ [2#4, 3#4, 4#4] ∧ headerSeed w = 0#8) := by
  simp only [decode_eq_ok_iff, encode_eq_iff]
  constructor
  · rintro ⟨i, hop, hrsv, hseed⟩
    cases i with
    | encs seed => exact ⟨hrsv, .inl hop⟩
    | enc | encall | dec => exact ⟨hrsv, .inr ⟨by simp [hop, opcodeOf], hseed⟩⟩
  · rintro ⟨hrsv, hencs | ⟨hop, hseed⟩⟩
    · exact ⟨.encs (headerSeed w), hencs, hrsv, rfl⟩
    · simp only [List.mem_cons, List.not_mem_nil, or_false] at hop
      rcases hop with henc | hencall | hdec
      · exact ⟨.enc, henc, hrsv, hseed⟩
      · exact ⟨.encall, hencall, hrsv, hseed⟩
      · exact ⟨.dec, hdec, hrsv, hseed⟩

theorem exists_decode_eq_error_iff_not (w : Header) : (∃ e, decode w = .error e) ↔ ¬ ∃ i, decode w = .ok i := by
  cases decode w with
  | ok i => simp
  | error e => simp

/-- The opcodes of the commands are 1 to 4 (R53). -/
theorem not_opcode_of_command_iff (op : BitVec 4) :
    (op ≠ 1#4 ∧ op ∉ [2#4, 3#4, 4#4]) ↔ op = 0#4 ∨ 5 ≤ op.toNat := by
  revert op
  decide

/-- R59's list of the illegal headers. -/
theorem exists_decode_eq_error_iff (w : Header) : (∃ e, decode w = .error e) ↔
    headerOp w = 0#4 ∨ 5 ≤ (headerOp w).toNat ∨ headerRsv w ≠ 0#4
      ∨ (headerOp w ∈ [2#4, 3#4, 4#4] ∧ headerSeed w ≠ 0#8) := by
  have hencs : headerOp w = 1#4 → headerOp w ∉ [2#4, 3#4, 4#4] := by
    intro hop
    rw [hop]
    decide
  rw [exists_decode_eq_error_iff_not, exists_decode_eq_ok_iff, ← or_assoc, ← not_opcode_of_command_iff]
  tauto

end Sys2Proof
end

section
/-! The assembler's lines (R62): the number of a header, and which commands can be presented at the port. -/

namespace Sys2Proof.Machine

theorem encode_toNat (i : Instr) : (encode i).toNat = (opcodeOf i).toNat * 4096 + (seedFieldOf i).toNat := by
  have hseed : (seedFieldOf i).toNat < 2 ^ 12 := Nat.lt_trans (seedFieldOf i).isLt (by decide)
  have hlow : (0#4 ++ seedFieldOf i).toNat = (seedFieldOf i).toNat := by
    rw [BitVec.toNat_append, BitVec.toNat_ofNat, Nat.zero_mod, Nat.zero_shiftLeft, Nat.zero_or]
  rw [encode, BitVec.toNat_append, hlow, ← Nat.shiftLeft_add_eq_or_of_lt hseed, Nat.shiftLeft_eq]

/-- A number within the width of its field is the field's value. -/
theorem toNat_ofNat_of_lt {w n : Nat} (h : n < 2 ^ w) : (BitVec.ofNat w n).toNat = n :=
  (BitVec.toNat_ofNat n w).trans (Nat.mod_eq_of_lt h)

theorem assembleString_indexForm (cfg : Config) (s : Index7) (is : List Index7) :
    assembleString cfg (.indexForm s.toNat (is.map BitVec.toNat)) = alphaRead cfg s :: is.map (alphaRead cfg) := by
  simp [assembleString, indexForm, Function.comp_def]

theorem stringFits_iff (cfg : Config) (cs : List SymCode) :
    stringFits cfg cs = true ↔ (∀ c ∈ cs, c < 2 ^ cfg.raw.symW) ∧ cs.length < 2 ^ cfg.raw.lenW := by
  simp only [stringFits, Bool.and_eq_true, List.all_eq_true, decide_eq_true_eq]

theorem stringFits_nil (cfg : Config) : stringFits cfg [] = true :=
  (stringFits_iff cfg []).mpr ⟨fun _ h => absurd h List.not_mem_nil, Nat.two_pow_pos _⟩

/-- The operand string of a well-formed line fits the port: the index form names alphabet entries, which have `SYM_W` bits. -/
theorem stringFits_assembleString {cfg : Config} {str : AsmString} (h : str.wf cfg = true) :
    stringFits cfg (assembleString cfg str) = true := by
  cases str with
  | codes cs => exact h
  | indexForm s is =>
    simp only [AsmString.wf, Bool.and_eq_true, decide_eq_true_eq] at h
    obtain ⟨-, hlength⟩ := h
    refine (stringFits_iff cfg _).mpr ⟨fun c hc => ?_, by simpa [assembleString, indexForm] using hlength⟩
    rcases List.mem_cons.mp hc with rfl | hc
    · exact alphaRead_lt cfg _
    · obtain ⟨i, -, rfl⟩ := List.mem_map.mp hc
      exact alphaRead_lt cfg i

/-- The command of a well-formed line can be presented: only DEC shows a string, the others show none. -/
theorem assemble_wf {cfg : Config} {l : AsmLine} (h : l.wf cfg = true) : (assemble cfg l).wf cfg = true := by
  cases l with
  | encs | enc | encall => exact stringFits_nil cfg
  | dec str => exact stringFits_assembleString h

theorem assemble_encs_header_toNat (cfg : Config) (num : Nat) {seed : Nat} (h : seed < 256) :
    (assemble cfg (.encs num seed)).header.toNat = 0x1000 + seed := by
  have hop : (opcodeOf (.encs (BitVec.ofNat 8 seed))).toNat = 1 := rfl
  rw [assemble, encode_toNat, hop, seedFieldOf, toNat_ofNat_of_lt (w := 8) h, Nat.one_mul]

/-- Settles O5, line by line from the encoder and the ranges of the literals. -/
theorem assemblerLinesGiveTheirCommands : Obligations.AssemblerLinesGiveTheirCommands := by
  refine fun cfg => ⟨fun num seed h => ?_, fun num h => ?_, fun num h => ?_, fun cs => ⟨encode_dec, rfl⟩,
    fun s is => ⟨encode_dec, assembleString_indexForm cfg s is⟩, fun l => assemble_wf⟩
  · simp only [AsmLine.wf, Bool.and_eq_true, decide_eq_true_eq] at h
    obtain ⟨hnum, hseed⟩ := h
    exact ⟨assemble_encs_header_toNat cfg num hseed, toNat_ofNat_of_lt hnum⟩
  · exact ⟨encode_enc, toNat_ofNat_of_lt (of_decide_eq_true h)⟩
  · exact ⟨encode_encall, toNat_ofNat_of_lt (of_decide_eq_true h)⟩

end Sys2Proof.Machine
end

section
/-! The outside actions (log entry 6): what each does with its turn. -/

namespace Sys2Proof.Machine

variable {s : State} {rest : List HostAction}

theorem step_present {c : Command} (h : s.script = .present c :: rest) (hfree : s.cmdValid = false) :
    step s = .next (State.presentCommand { s with script := rest } c) := by
  simp only [step, turn, h, hfree, Bool.false_eq_true, if_false, State.drive_present]

theorem step_driveSeed {r : Index7} (h : s.script = .driveSeed r :: rest) :
    step s = .next { s with script := rest, seedSrc := r } := by
  simp only [step, turn, h, State.drive_driveSeed]

theorem step_releaseReset (h : s.script = .releaseReset :: rest) :
    step s = .next { s with script := rest, resetIn := false } := by
  simp only [step, turn, h, State.drive_releaseReset]

theorem step_assertReset (h : s.script = .assertReset :: rest) :
    step s = .next { State.applyReset { s with script := rest } with resetIn := true } := by
  simp only [step, turn, h, State.drive_assertReset]

end Sys2Proof.Machine

namespace Sys2Proof.Machine

/-- Settles O26, by the rule of each outside action and of the idle block. -/
theorem outsideActionsHaveTheirListedEffects : Obligations.OutsideActionsHaveTheirListedEffects := by
  intro s rest
  refine ⟨fun c => step_present, fun r => step_driveSeed, step_releaseReset, step_assertReset,
    fun hscript hreset hready hfree => ?_, fun hscript hreset hready hfree => ?_⟩
  · rw [step_wait hscript]
    exact codecMove_idle (s := { s with script := rest }) hreset hready hfree
  · rw [step_nil hscript]
    exact codecMove_idle hreset hready hfree

end Sys2Proof.Machine
end

section
/-! The block's turn with a command at the port (R50, R51, R59): when it is answered and how. -/

namespace Sys2Proof.Machine

/-- Settles O25: in each of the three ways the turn is the block's, its move performs the decoded command. -/
theorem stepRunsTheDecodedCommand : Obligations.StepRunsTheDecodedCommand := by
  intro s i hreset hready hvalid hdecode
  refine ⟨fun hscript => ?_, fun rest hscript => ?_, fun c rest hscript => ?_⟩
  · rw [step_nil hscript]
    exact codecMove_ok hreset hready hvalid hdecode
  · rw [step_wait hscript]
    exact codecMove_ok (s := { s with script := rest }) hreset hready hvalid hdecode
  · rw [step_present_busy hscript hvalid]
    exact codecMove_ok hreset hready hvalid hdecode

theorem Serving.step_ok {s : State} (h : Serving s) {i : Instr} (hdecode : decode s.cmd.header = .ok i) :
    step s = exec i s := by
  obtain ⟨hscript, hreset, hready, hvalid⟩ := h
  rw [step_nil hscript, codecMove_ok hreset hready hvalid hdecode]

theorem Serving.step_error {s : State} (h : Serving s) {e : DecodeError} (hdecode : decode s.cmd.header = .error e) :
    step s = .next { s with responses := s.responses ++ [.error .illegalCmd], cmdValid := false } := by
  obtain ⟨hscript, hreset, hready, hvalid⟩ := h
  rw [step_nil hscript, codecMove_error hreset hready hvalid hdecode, State.raise, State.respond]

/-- Settles O4: R59's list from the decoder, and the answer from the block's turn. -/
theorem illegalHeaderIsAnsweredIllegalCmd : Obligations.IllegalHeaderIsAnsweredIllegalCmd :=
  ⟨exists_decode_eq_error_iff, fun _ hserving ⟨_, hdecode⟩ => hserving.step_error hdecode⟩

/-- A move of the block with `READY` = 0 is reset or BUILD, and neither answers (R51, R170). -/
theorem codecMove_responses_of_not_ready {s t : State} (hmove : codecMove s = .next t) (hready : s.ready = false) :
    t.responses = s.responses := by
  rcases codecMove_cases hmove with ⟨-, rfl⟩ | ⟨-, -, rfl⟩ | ⟨-, hon, -⟩ | ⟨-, hon, -⟩ | ⟨-, hon, -⟩
  · exact State.applyReset_responses s
  · exact State.build_responses s
  all_goals simp [hready] at hon

theorem step_responses_of_not_ready {s t : State} (hstep : step s = .next t) (hready : s.ready = false) :
    t.responses = s.responses := by
  rcases step_cases hstep with ⟨c, rest, -, -, rfl⟩ | ⟨r, rest, -, rfl⟩ | ⟨rest, -, rfl⟩ | ⟨rest, -, rfl⟩
    | ⟨script, -, hmove⟩
  · rfl
  · rfl
  · rfl
  · rfl
  · exact codecMove_responses_of_not_ready (s := { s with script := script }) hmove hready

/-- After BUILD a held command has the block's turn. -/
theorem serving_build {s : State} (hscript : s.script = []) (hreset : s.resetIn = false) (hvalid : s.cmdValid = true) :
    Serving s.build :=
  ⟨by rw [State.build_script, hscript], by rw [State.build_resetIn, hreset], State.build_ready s,
    by rw [State.build_cmdValid, hvalid]⟩

/-- Settles O20: before `READY` = 1 the block's move is BUILD, which keeps the command at the port and leaves it the turn. -/
theorem commandIsHeldUntilReady : Obligations.CommandIsHeldUntilReady := by
  refine ⟨fun _ _ => step_responses_of_not_ready, fun s hscript hreset hready hvalid => ?_⟩
  have hserving : Serving s.build := serving_build hscript hreset hvalid
  have hstep : step s = .next s.build := by rw [step_nil hscript, codecMove_build hreset hready]
  have hcmd : s.build.cmd = s.cmd := State.build_cmd s
  refine ⟨s.build, hstep, State.build_ready s, (State.build_cmdValid s).trans hvalid, hcmd, State.build_responses s,
    State.build_seedSrc s, fun i hdecode => ?_, fun e hdecode => ?_⟩
  · rw [← hcmd] at hdecode
    exact hserving.step_ok hdecode
  · rw [← hcmd] at hdecode
    exact hserving.step_error hdecode

end Sys2Proof.Machine
end

section
/-! The responses (R50, R56 to R58): what a command's execution delivers, the status codes and the readable fields. -/

namespace Sys2Proof.Machine

/-- A command's execution answers a next state with the one response `execResponse` names. -/
theorem exec_delivers {i : Instr} {s : State} {rs : List Response} {r : Response} (hs : s.responses = rs)
    (hr : execResponse i s = r) : ∃ t, t.responses = rs ++ [r] ∧ exec i s = .next t :=
  ⟨_, by simp [hs, hr], exec_eq i s⟩

/-- Settles O31: ENCS and ENCALL read the alphabet and `NUM_IN`, ENC the draw too, DEC the map and the string. -/
theorem unsampledOperandsHaveNoEffect : Obligations.UnsampledOperandsHaveNoEffect := fun s =>
  ⟨fun seed => ⟨encsResponse s.cfg s.cmd.numIn seed, fun _ _ => exec_delivers rfl rfl⟩,
    ⟨encsResponse s.cfg s.cmd.numIn (seedField s.seedSrc), fun _ => exec_delivers rfl rfl⟩,
    ⟨.strings (encodeAll s.cfg s.cmd.numIn), fun _ _ => exec_delivers rfl rfl⟩,
    ⟨execResponse .dec s, fun _ _ => exec_delivers rfl rfl⟩⟩

/-- The errors DEC can end in (R120, R145). -/
theorem decodeString_error_status {m : Rmap} {str : List SymCode} {e : CodecError} (h : decodeString m str = .error e) :
    e.status ∈ statusesOf .dec := by
  match str with
  | [] | [_] =>
    obtain rfl := Except.error.inj h
    decide
  | sd :: d :: ds =>
    rw [decodeString_cons m sd (List.cons_ne_nil d ds)] at h
    cases hseed : rmapLookup m sd with
    | none =>
      simp only [hseed, Except.error.injEq] at h
      subst h
      simp [CodecError.status, statusesOf]
    | some seed =>
      simp only [hseed] at h
      rcases decodeLoop_cases m seed (d :: ds) 0#64 with ⟨v, hv, -⟩ | ⟨c, hc, -, -⟩ | hover
      · simp [hv] at h
      · obtain rfl := Except.error.inj (hc.symm.trans h)
        simp [CodecError.status, statusesOf]
      · obtain rfl := Except.error.inj (hover.symm.trans h)
        decide

/-- Every command ends in a status its row of R145 lists. -/
theorem execResponse_status_mem (i : Instr) (s : State) : (execResponse i s).status ∈ statusesOf i := by
  cases i with
  | encs seed =>
    simp only [execResponse, encsResponse]
    split
    · exact List.mem_cons_self
    · simp [Response.status, CodecError.status, statusesOf]
  | enc =>
    simp only [execResponse, encsResponse_seedField]
    exact List.mem_cons_self
  | encall => exact List.mem_cons_self
  | dec =>
    simp only [execResponse]
    cases hdec : decodeString s.rmap s.cmd.symIn with
    | ok v => exact List.mem_cons_self
    | error e => exact decodeString_error_status hdec

/-- Settles O28: the lines are those of the state the command responds from, which differs by a draw at most. -/
theorem everyCommandDeliversOneListedStatus : Obligations.EveryCommandDeliversOneListedStatus := fun i s =>
  ⟨_, execResponse i s, exec_eq i s, by simp, execResponse_status_mem i s, by simp, by simp, by simp, by simp⟩

theorem Status.code_toNat_le (st : Status) : st.code.toNat ≤ 5 := by
  cases st <;> decide

/-- Settles O34: a response's code is that of its outcome, and each of the six codes is at most 5. -/
theorem statusCodesAreZeroToFive : Obligations.StatusCodesAreZeroToFive :=
  ⟨fun _ => rfl, fun _ => rfl, rfl, rfl, fun _ => rfl, rfl, rfl, fun r => r.status.code_toNat_le⟩

/-- `ESYM` stands beside UNKNOWN_SYMBOL alone (R58). -/
theorem Response.esym?_eq_some_iff (r : Response) (c : SymCode) : r.esym? = some c ↔ r = .error (.unknownSymbol c) := by
  cases r with
  | strings out => simp [Response.esym?]
  | value v => simp [Response.esym?]
  | error e =>
    cases e with
    | unknownSymbol c' => simp [Response.esym?]
    | invalidSeed | tooShort | accOverflow | illegalCmd => simp [Response.esym?]

/-- Settles O35: each field is read off the outcome that carries it. -/
theorem responseFieldsAreReadableAsListed : Obligations.ResponseFieldsAreReadableAsListed :=
  ⟨fun _ _ _ => ⟨rfl, rfl, rfl, rfl, rfl⟩, fun _ _ _ => ⟨rfl, rfl, rfl, rfl, rfl⟩,
    fun e _ _ => ⟨rfl, rfl, rfl, rfl, fun c => by simpa using Response.esym?_eq_some_iff (.error e) c⟩⟩

/-- String `j` can be read only from a response of strings, and is one of them. -/
theorem Response.exists_of_string?_eq_some {r : Response} {j : Nat} {str : List SymCode} (h : r.string? j = some str) :
    ∃ out, r = .strings out ∧ str ∈ out := by
  cases r with
  | strings out => exact ⟨out, rfl, List.mem_of_getElem? h⟩
  | value v => cases h
  | error e => cases h

variable {cfg : Config} {r : Response}

/-- A string of a response within its widths has 2 to 11 symbols of the alphabet. -/
theorem Response.wf.string {j : Nat} {str : List SymCode} (hwf : r.wf cfg) (h : r.string? j = some str) :
    2 ≤ str.length ∧ str.length ≤ 11 ∧ ∀ c ∈ str, c ∈ cfg.raw.alpha := by
  obtain ⟨out, rfl, hmem⟩ := Response.exists_of_string?_eq_some h
  obtain ⟨-, hstrings⟩ := hwf
  exact hstrings str hmem

/-- `OCNT`, 1 or 128, does not wrap in 8 bits. -/
theorem Response.wf.ocnt {out : List (List SymCode)} (hwf : (Response.strings out).wf cfg) :
    (BitVec.ofNat 8 out.length).toNat = out.length := by
  obtain ⟨hone | hall, -⟩ := hwf
  · rw [hone]
    rfl
  · rw [hall]
    rfl

/-- A symbol of an encoded string is an alphabet entry, and so has `SYM_W` bits. -/
theorem Response.wf.osym_lt {j k : Nat} {c : SymCode} (hwf : r.wf cfg) (h : r.osym? j k = some c) :
    c < 2 ^ cfg.raw.symW := by
  obtain ⟨str, hstr, hc⟩ := Option.bind_eq_some_iff.mp h
  obtain ⟨-, -, hsymbols⟩ := hwf.string hstr
  exact cfg.alpha_fits c (hsymbols c (List.mem_of_getElem? hc))

theorem Response.wf.esym_lt {c : SymCode} (hwf : r.wf cfg) (h : r.esym? = some c) : c < 2 ^ cfg.raw.symW := by
  obtain rfl := (Response.esym?_eq_some_iff r c).mp h
  obtain ⟨hlt, -⟩ := hwf
  exact hlt

/-- `OLEN`, 2 to 11, does not wrap in 4 bits. -/
theorem Response.wf.olen {j : Nat} {str : List SymCode} (hwf : r.wf cfg) (h : r.string? j = some str) :
    ∃ n, r.olen? j = some n ∧ n.toNat = str.length ∧ 2 ≤ n.toNat ∧ n.toNat ≤ 11 := by
  obtain ⟨hmin, hmax, -⟩ := hwf.string h
  have hn : (BitVec.ofNat 4 str.length).toNat = str.length :=
    toNat_ofNat_of_lt (Nat.lt_of_le_of_lt hmax (by decide))
  exact ⟨BitVec.ofNat 4 str.length, by rw [Response.olen?, h, Option.map_some], hn, by rwa [hn], by rwa [hn]⟩

end Sys2Proof.Machine

namespace Sys2Proof.Machine

/-- Settles O36: the invariant holds every delivered response within its widths. -/
theorem responseCountsFitTheirFields : Obligations.ResponseCountsFitTheirFields := by
  intro s hinv r hr
  have hwf : r.wf s.cfg := hinv.responsesFit r hr
  refine ⟨fun out hout => ?_, fun j str => hwf.olen, fun j k c => hwf.osym_lt, fun c => hwf.esym_lt⟩
  subst hout
  exact ⟨BitVec.ofNat 8 out.length, rfl, hwf.ocnt⟩

end Sys2Proof.Machine
end

section
/-! The digits of a number (R74) and the value of a digit sequence (R77): the model's units against Mathlib's digits. -/

namespace Sys2Proof.Machine

theorem ofDigits_reverse_base128 (n : Nat) : Nat.ofDigits 128 (base128 n).reverse = n := by
  rw [base128]
  split
  next hzero => simp [hzero]
  next => rw [List.reverse_reverse, Nat.ofDigits_digits]

/-- Digit `j` from the least significant: the sole digit of 0 agrees with the digits there are none of. -/
theorem getD_reverse_base128 (n j : Nat) : (base128 n).reverse.getD j 0 = n / 128 ^ j % 128 := by
  have hdigit := Nat.getD_digits n j (b := 128) (by decide)
  rw [base128]
  split
  next hzero => cases j <;> simp [hzero]
  next => rwa [List.reverse_reverse]

/-- The count of digits is the least `m` with `n < 128^m`. -/
theorem base128_length_le_iff {n : Nat} (hne : n ≠ 0) (m : Nat) : (base128 n).length ≤ m ↔ n < 128 ^ m := by
  rw [base128, if_neg hne, List.length_reverse, Nat.digits_length_le_iff (by decide)]

theorem base128_head?_ne_zero {n : Nat} (hne : n ≠ 0) : (base128 n).head? ≠ some 0 := by
  rw [base128, if_neg hne, List.head?_reverse, List.getLast?_eq_some_getLast (Nat.digits_ne_nil_iff_ne_zero.mpr hne)]
  exact fun hzero => Nat.getLast_digit_ne_zero 128 hne (Option.some.inj hzero)

/-- The value of a digit sequence, most significant first, is that of Mathlib's digits, least significant first. -/
theorem digitsValue_eq_ofDigits (ds : List Index7) :
    digitsValue ds = Nat.ofDigits 128 (ds.map BitVec.toNat).reverse := by
  induction ds with
  | nil => rfl
  | cons d ds ih =>
    rw [digitsValue_cons, ih, List.map_cons, List.reverse_cons, Nat.ofDigits_append, Nat.ofDigits_singleton,
      List.length_reverse, List.length_map, Nat.add_comm, Nat.mul_comm]

theorem digitsValue_singleton (d : Index7) : digitsValue [d] = d.toNat := by
  rw [digitsValue_cons, List.length_nil, pow_zero, Nat.mul_one]
  rfl

theorem digitsValue_replicate_zero (k : Nat) : digitsValue (List.replicate k 0#7) = 0 := by
  induction k with
  | zero => rfl
  | succ k ih => rw [List.replicate_succ, digitsValue_cons, ih, BitVec.toNat_zero, Nat.zero_mul]

variable (n : Num64)

theorem digits128_length : (digits128 n).length = (base128 n.toNat).length := by
  rw [← digits128_toNat, List.length_map]

theorem digitsValue_digits128 : digitsValue (digits128 n) = n.toNat := by
  rw [digitsValue_eq_ofDigits, digits128_toNat, ofDigits_reverse_base128]

theorem digits128_length_bounds : 1 ≤ (digits128 n).length ∧ (digits128 n).length ≤ 10 := by
  rw [digits128_length]
  exact base128_length_bounds n

variable {n}

theorem digits128_length_le_iff (hne : n ≠ 0#64) (m : Nat) : (digits128 n).length ≤ m ↔ n.toNat < 128 ^ m := by
  rw [digits128_length, base128_length_le_iff (BitVec.toNat_ne_iff_ne.mpr hne)]

theorem digits128_head?_ne_zero (hne : n ≠ 0#64) : (digits128 n).head? ≠ some 0#7 := by
  intro hzero
  refine base128_head?_ne_zero (BitVec.toNat_ne_iff_ne.mpr hne) ?_
  rw [← digits128_toNat, List.head?_map, hzero]
  rfl

theorem toNat_getElem_reverse_digits128 {j : Nat} (hj : j < (digits128 n).reverse.length) :
    ((digits128 n).reverse[j]).toNat = n.toNat / 128 ^ j % 128 := by
  have hdigit := getD_reverse_base128 n.toNat j
  rw [← digits128_toNat, ← List.map_reverse] at hdigit
  rw [← hdigit, List.getD_eq_getElem _ _ (by rwa [List.length_map]), List.getElem_map]

/-- The field `n[7j+6 : 7j]` as a number; past bit 63 it reads zeros. -/
theorem extractLsb'_digit_toNat (n : Num64) (j : Nat) : (n.extractLsb' (7 * j) 7).toNat = n.toNat / 128 ^ j % 128 := by
  rw [BitVec.extractLsb'_toNat, Nat.shiftRight_eq_div_pow, pow_mul]
  rfl

/-- Settles O9, by Mathlib's digits. -/
theorem digitsAreMinimalAndExact : Obligations.DigitsAreMinimalAndExact := by
  refine ⟨fun n => ⟨digitsValue_digits128 n, digits128_length_bounds n⟩, fun n hne => ⟨?_, fun m => ?_, ?_⟩,
    by decide, by decide⟩
  · exact (digits128_length_le_iff hne _).mp le_rfl
  · exact (digits128_length_le_iff hne m).mpr
  · exact digits128_head?_ne_zero hne

/-- Settles O10: the digit and the field are the same number. -/
theorem digitsAreBitFieldsOfTheNumber : Obligations.DigitsAreBitFieldsOfTheNumber := by
  intro n j hj
  have hrev : j < (digits128 n).reverse.length := by rwa [List.length_reverse]
  refine List.getElem?_eq_some_iff.mpr ⟨hrev, BitVec.eq_of_toNat_eq ?_⟩
  rw [toNat_getElem_reverse_digits128, extractLsb'_digit_toNat]

/-- Settles O12, by the value of two sequences one after the other. -/
theorem digitSequenceValueIsPositional : Obligations.DigitSequenceValueIsPositional := by
  refine ⟨rfl, digitsValue_cons, fun ds d => ?_, fun k ds => ?_⟩
  · rw [digitsValue_append, digitsValue_singleton, List.length_singleton, pow_one]
  · rw [digitsValue_append, digitsValue_replicate_zero, Nat.zero_mul, Nat.zero_add]

end Sys2Proof.Machine
end

section
/-! The seed offset and its check (R72, R73, R78): 7-bit arithmetic whose carry or borrow is dropped. -/

namespace Sys2Proof.Machine

theorem scr_eq_add (d seed : Index7) : scr d seed = d + seed :=
  BitVec.eq_of_toNat_eq ((scr_toNat d seed).trans (BitVec.toNat_add d seed).symm)

theorem unscr_eq_sub (idx seed : Index7) : unscr idx seed = idx - seed := by
  have hseed := seed.isLt
  refine BitVec.eq_of_toNat_eq ?_
  rw [unscr_toNat, BitVec.toNat_sub]
  congr 1
  omega

theorem unscr_scr (d seed : Index7) : unscr (scr d seed) seed = d := by
  rw [scr_eq_add, unscr_eq_sub, BitVec.add_sub_cancel]

theorem scr_unscr (idx seed : Index7) : scr (unscr idx seed) seed = idx := by
  rw [scr_eq_add, unscr_eq_sub, BitVec.sub_add_cancel]

theorem scr_bijective (seed : Index7) : Function.Bijective (fun d => scr d seed) :=
  Function.bijective_iff_has_inverse.mpr
    ⟨fun idx => unscr idx seed, fun d => unscr_scr d seed, fun idx => scr_unscr idx seed⟩

/-- Settles O6: the exact sum is the 7-bit sum, and the unscrambler is its inverse. -/
theorem scramblerAddsSeedModulo128 : Obligations.ScramblerAddsSeedModulo128 := by
  refine ⟨fun d seed => ⟨scr_toNat d seed, scr_eq_add d seed, ?_⟩, fun d => ?_, fun seed => ?_, rfl, rfl, rfl,
    scr_bijective⟩
  · have hd := d.isLt
    have hseed := seed.isLt
    omega
  · rw [scr_eq_add, BitVec.add_zero]
  · rw [scr_eq_add, BitVec.zero_add]

/-- Settles O7: with both operands below 128 no intermediate is negative, and the result is the 7-bit difference. -/
theorem unscramblerInvertsScrambler : Obligations.UnscramblerInvertsScrambler := by
  refine ⟨fun idx seed => ?_, fun idx => ?_, fun seed => ?_, rfl, rfl, rfl, unscr_scr, scr_unscr⟩
  · have hidx := idx.isLt
    have hseed := seed.isLt
    have hexact := unscr_toNat idx seed
    exact ⟨by omega, unscr_eq_sub idx seed, by omega, by omega⟩
  · rw [unscr_eq_sub, BitVec.sub_zero]
  · rw [unscr_eq_sub, BitVec.sub_self]

/-- A field is below 128 exactly when its bit 7 is 0. -/
theorem seedOk_iff_getLsbD (seed : SeedField) : seedOk seed = true ↔ seed.getLsbD 7 = false := by
  have hmsb : seed.getLsbD 7 = seed.msb := (BitVec.msb_eq_getLsbD_last seed).symm
  rw [seedOk_iff, hmsb, BitVec.msb_eq_false_iff_two_mul_lt]
  omega

/-- Settles O8, by the compare and its bit form. -/
theorem seedCheckReadsTheWholeField : Obligations.SeedCheckReadsTheWholeField :=
  ⟨fun seed => ⟨seedOk_iff seed, seedOk_iff_getLsbD seed⟩, rfl, rfl, rfl, rfl,
    fun r => ⟨seedOk_seedField r, seedLow_seedField r⟩⟩

end Sys2Proof.Machine
end

section
/-! The accumulator step (R75) in bits: `acc * 128 + d` is `acc` followed by `d`. -/

namespace Sys2Proof.Machine

theorem extractLsb'_top_eq_zero_iff (acc : Num64) : acc.extractLsb' 57 7 = 0#7 ↔ acc.toNat < 2 ^ 57 := by
  have hacc := acc.isLt
  rw [← BitVec.toNat_inj, BitVec.extractLsb'_toNat, Nat.shiftRight_eq_div_pow, BitVec.toNat_zero]
  omega

/-- The digit fills only the seven bits shifted in. -/
theorem accStep_eq_none_iff_top (acc : Num64) (d : Index7) : accStep acc d = none ↔ acc.extractLsb' 57 7 ≠ 0#7 := by
  have hd := d.isLt
  rw [accStep_eq_none_iff, ne_eq, extractLsb'_top_eq_zero_iff]
  omega

theorem low_append_digit_toNat (acc : Num64) (d : Index7) :
    (acc.extractLsb' 0 57 ++ d).toNat = acc.toNat % 2 ^ 57 * 128 + d.toNat := by
  rw [BitVec.toNat_append, ← Nat.shiftLeft_add_eq_or_of_lt d.isLt, Nat.shiftLeft_eq, BitVec.extractLsb'_toNat,
    Nat.shiftRight_zero]

/-- Where the step does not overflow, no bit of `acc` is lost. -/
theorem eq_append_of_accStep_eq_some {acc t : Num64} {d : Index7} (h : accStep acc d = some t) :
    t = acc.extractLsb' 0 57 ++ d := by
  have hexact := (accStep_eq_some_iff acc d t).mp h
  have ht := t.isLt
  have hfits : acc.toNat % 2 ^ 57 = acc.toNat := Nat.mod_eq_of_lt (by omega)
  refine BitVec.eq_of_toNat_eq (hexact.trans ?_)
  rw [low_append_digit_toNat, hfits]

/-- Settles O11: the exact value, and the same step read in bits. -/
theorem accumulatorStepIsExactOrOverflows : Obligations.AccumulatorStepIsExactOrOverflows :=
  ⟨fun acc d => ⟨accStep_eq_none_iff acc d, accStep_eq_none_iff_top acc d,
      fun t h => ⟨(accStep_eq_some_iff acc d t).mp h, eq_append_of_accStep_eq_some h⟩⟩,
    rfl, rfl, rfl, rfl⟩

end Sys2Proof.Machine
end

section
/-! BUILD (R90 to R92) as the block's move from the empty map: the map it leaves, and its whole next state. -/

namespace Sys2Proof.Machine

/-- From the empty map BUILD leaves a map fixed by the alphabet alone, and writes only `RMAP` and `READY` (R90). -/
theorem codecMove_build_of_rmap_nil {s : State} (hreset : s.resetIn = false) (hready : s.ready = false)
    (hempty : s.rmap = []) :
    codecMove s = .next { s with rmap := buildEntries s.cfg [] (List.range Config.radix), ready := true } := by
  rw [codecMove_build hreset hready, State.build, hempty]

/-- Settles O15: in each of the three ways the turn is the block's, its move is BUILD from the empty map, which leaves the two
lines of R11 in canonical form. -/
theorem buildMakesTheReverseMap : Obligations.BuildMakesTheReverseMap := by
  intro s hreset hready hempty
  have hbuilt : MapBuilt s.cfg (buildEntries s.cfg [] (List.range Config.radix)) := mapBuilt_buildEntries s.cfg
  have ⟨hfound, habsent⟩ := hbuilt
  refine ⟨buildEntries s.cfg [] (List.range Config.radix), fun hscript => ?_, fun rest hscript => ?_,
    fun c rest hscript hvalid => ?_, hfound, fun _ _ => hbuilt.alphaRead_eq, habsent,
    buildEntries_wf s.cfg _ List.Pairwise.nil⟩
  · rw [step_nil hscript]
    exact codecMove_build_of_rmap_nil hreset hready hempty
  · rw [step_wait hscript]
    exact codecMove_build_of_rmap_nil (s := { s with script := rest }) hreset hready hempty
  · rw [step_present_busy hscript hvalid]
    exact codecMove_build_of_rmap_nil hreset hready hempty

end Sys2Proof.Machine
end

section
/-! The round trip (R103, R106, R108, R127): DEC undoes the string of an encode command, and what follows from that. -/

namespace Sys2Proof.Machine

theorem digits128_ne_nil (num : Num64) : digits128 num ≠ [] :=
  List.length_pos_iff.mp (digits128_length_bounds num).1

/-- In a map with the two lines of R11 the symbols of given indices are found at those indices. -/
theorem MapBuilt.map_rmapLookup {cfg : Config} {m : Rmap} (h : MapBuilt cfg m) (is : List Index7) :
    (is.map (symOf cfg)).map (rmapLookup m) = is.map some := by
  obtain ⟨hfound, -⟩ := h
  rw [List.map_map]
  exact List.map_congr_left fun i _ => hfound i

theorem map_unscr_map_scr (ds : List Index7) (seed : Index7) :
    (ds.map (fun d => scr d seed)).map (fun i => unscr i seed) = ds := by
  simp only [List.map_map, Function.comp_def, unscr_scr, List.map_id']

/-- The symbol loop of DEC over the symbols of indices whose unscrambled digits have a 64-bit value: `decodeLoop_append`, the
induction over the digits, from the accumulator 0 to the end of the string. -/
theorem decodeLoop_map_symOf {cfg : Config} {m : Rmap} (h : MapBuilt cfg m) {seed : Index7} {is : List Index7} {num : Num64}
    (hvalue : digitsValue (is.map (fun i => unscr i seed)) = num.toNat) :
    decodeLoop m seed 0#64 (is.map (symOf cfg)) = .ok num := by
  have hexact : (0#64).toNat * 128 ^ is.length + digitsValue (is.map (fun i => unscr i seed)) = num.toNat := by
    rw [BitVec.toNat_zero, Nat.zero_mul, Nat.zero_add, hvalue]
  obtain ⟨t, ht, hloop⟩ := decodeLoop_append m seed _ [] is 0#64 (h.map_rmapLookup is) (hexact ▸ num.isLt)
  obtain rfl : t = num := BitVec.eq_of_toNat_eq (ht.trans hexact)
  rwa [List.append_nil, decodeLoop] at hloop

/-- The encoded string as the seed symbol followed by the symbols of the scrambled digits. -/
theorem encodeString_eq_cons (cfg : Config) (num : Num64) (seed : Index7) :
    encodeString cfg num seed = symOf cfg seed :: ((digits128 num).map (fun d => scr d seed)).map (symOf cfg) := by
  rw [encodeString, List.map_map]
  rfl

/-- DEC of an encoded string over the map of R11: the seed symbol gives the seed back, the loop the number. -/
theorem decodeString_encodeString {cfg : Config} {m : Rmap} (h : MapBuilt cfg m) (num : Num64) (seed : Index7) :
    decodeString m (encodeString cfg num seed) = .ok num := by
  have hseed : rmapLookup m (symOf cfg seed) = some seed := h.1 seed
  have hvalue : digitsValue (((digits128 num).map (fun d => scr d seed)).map (fun i => unscr i seed)) = num.toNat := by
    rw [map_unscr_map_scr, digitsValue_digits128]
  rw [encodeString_eq_cons, decodeString_cons _ _ (by simpa using digits128_ne_nil num), hseed]
  exact decodeLoop_map_symOf h hvalue

/-- The command DEC with an encoded string as operand delivers the number. -/
theorem exec_dec_delivers_value {s : State} {num : Num64} {seed : Index7} (hbuilt : MapBuilt s.cfg s.rmap)
    (hsym : s.cmd.symIn = encodeString s.cfg num seed) :
    ∃ u, exec .dec s = .next u ∧ u.responses = s.responses ++ [.value num] := by
  have hresponse : execResponse .dec s = .value num := by
    simp only [execResponse, hsym, decodeString_encodeString hbuilt]
  obtain ⟨u, hu, hexec⟩ := exec_delivers rfl hresponse
  exact ⟨u, hexec, hu⟩

/-- A command that answers one encoded string of `NUM_IN` in service, then DEC of that string: no command writes the tables,
so the map is still the one of R11. -/
theorem exec_then_dec_delivers_numIn {s : State} {i : Instr} {seed : Index7} (hinv : CodecInv s) (hready : s.ready = true)
    (hresponse : execResponse i s = .strings [encodeString s.cfg s.cmd.numIn seed]) :
    ∃ t str, exec i s = .next t ∧ t.responses = s.responses ++ [.strings [str]]
      ∧ ∀ num, ∃ u, exec .dec { t with cmd := { header := 0x4000#16, numIn := num, symIn := str }, cmdValid := true } = .next u
          ∧ u.responses = t.responses ++ [.value s.cmd.numIn] := by
  obtain ⟨t, ht, hexec⟩ := exec_delivers rfl hresponse
  obtain ⟨hcfg, hrmap, -⟩ := exec_tables hexec
  have hbuilt : MapBuilt t.cfg t.rmap := by
    rw [hcfg, hrmap]
    exact hinv.built hready
  exact ⟨t, _, hexec, ht, fun _ => exec_dec_delivers_value hbuilt (congrArg (encodeString · s.cmd.numIn seed) hcfg.symm)⟩

/-- Settles O41: with a valid seed ENCS answers an encoded string, which DEC undoes. -/
theorem decodeOfEncodeReturnsTheNumber : Obligations.DecodeOfEncodeReturnsTheNumber :=
  fun s _ hinv hready hseed => exec_then_dec_delivers_numIn hinv hready (encsResponse_of_lt s.cfg s.cmd.numIn hseed)

/-- Settles O43: the draw is a 7-bit value, so ENC answers an encoded string, which DEC undoes. -/
theorem decodeOfEncReturnsTheNumber : Obligations.DecodeOfEncReturnsTheNumber :=
  fun s hinv hready => exec_then_dec_delivers_numIn hinv hready (encsResponse_seedField s.cfg s.cmd.numIn s.seedSrc)

end Sys2Proof.Machine
end

section
/-! ENCS and ENC (R100 to R105): their whole next state, the length of the string, and what the string names. -/

namespace Sys2Proof.Machine

theorem exec_encs_invalidSeed (s : State) {seed : SeedField} (h : 128 ≤ seed.toNat) :
    exec (.encs seed) s = .next { s with responses := s.responses ++ [.error .invalidSeed], cmdValid := false } := by
  rw [exec_eq, execResponse, encsResponse_of_le _ _ h, execSource, State.respond]

theorem exec_encs_seedField (s : State) (seed : Index7) :
    exec (.encs (seedField seed)) s = .next { s with
      responses := s.responses ++ [.strings [encodedString s.cfg s.cmd.numIn.toNat seed]], cmdValid := false } := by
  rw [exec_eq, execResponse, encsResponse_seedField, encodeString_eq, execSource, State.respond]

/-- The response a command delivered is the one that was appended. -/
theorem execResponse_eq_of_delivered {i : Instr} {s t : State} {r : Response} (h : exec i s = .next t)
    (hr : t.responses = s.responses ++ [r]) : execResponse i s = r := by
  have hresponses : s.responses ++ [execResponse i s] = s.responses ++ [r] := by simpa [exec_next h] using hr
  simpa using hresponses

/-- Settles O37, by the seed check on both sides. -/
theorem encsAnswersTheStringOrInvalidSeed : Obligations.EncsAnswersTheStringOrInvalidSeed :=
  fun s => ⟨exec_encs_seedField s, fun _ => exec_encs_invalidSeed s⟩

/-- Settles O38: below 128 the response is a string and no error. -/
theorem encsRaisesInvalidSeedExactlyAbove127 : Obligations.EncsRaisesInvalidSeedExactlyAbove127 := by
  refine ⟨fun s _ => exec_encs_invalidSeed s, fun s t seed hexec herror => ?_⟩
  by_contra hlt
  have hresponse := execResponse_eq_of_delivered hexec herror
  rw [execResponse, encsResponse_of_lt _ _ (Nat.not_le.mp hlt)] at hresponse
  cases hresponse

/-- Settles O42: the sampled value is a valid seed, and only the lines of the draw change beside the response. -/
theorem encAnswersUnderTheDrawnSeed : Obligations.EncAnswersUnderTheDrawnSeed := by
  intro s
  rw [exec_eq, execResponse, encsResponse_seedField, encodeString_eq, execSource, State.respond, State.afterDraw]

/-- The count of digits by a logarithm rounded up: both are the least `m` with `n < 128^m`, and 0 has one digit. -/
theorem base128_length_eq_max_clog (n : Nat) : (base128 n).length = max 1 (Nat.clog 128 (n + 1)) := by
  by_cases hzero : n = 0
  · subst hzero
    rfl
  · have hsame (m : Nat) : (base128 n).length ≤ m ↔ Nat.clog 128 (n + 1) ≤ m := by
      rw [base128_length_le_iff hzero, Nat.clog_le_iff_le_pow (by decide), Nat.succ_le_iff]
    have hclog : 1 ≤ Nat.clog 128 (n + 1) := Nat.clog_pos (by decide) (by omega)
    rw [max_eq_right hclog]
    exact eq_of_forall_ge_iff hsame

/-- A number from `128^(m-1)` to below `128^m` has `m` digits. -/
theorem base128_length_eq_of_bounds {n m : Nat} (hm : 1 ≤ m) (hlow : 128 ^ (m - 1) ≤ n) (hhigh : n < 128 ^ m) :
    (base128 n).length = m := by
  have hne : n ≠ 0 := (Nat.lt_of_lt_of_le (by positivity) hlow).ne'
  have hle : (base128 n).length ≤ m := (base128_length_le_iff hne m).mpr hhigh
  have hgt : ¬ (base128 n).length ≤ m - 1 := fun h => absurd ((base128_length_le_iff hne _).mp h) hlow.not_gt
  omega

/-- Settles O39: one symbol for the seed and one for each digit. -/
theorem encsStringLengthIsOnePlusDigitCount : Obligations.EncsStringLengthIsOnePlusDigitCount := by
  intro s seed hseed
  obtain ⟨t, ht, hexec⟩ := exec_delivers (i := .encs seed) rfl (encsResponse_of_lt s.cfg s.cmd.numIn hseed)
  obtain ⟨-, hmax⟩ := encodeString_length_bounds s.cfg s.cmd.numIn (seedLow seed)
  refine ⟨t, _, hexec, ht, ?_, fun m hm hlow hhigh => ?_, fun hzero => ?_, hmax⟩
  · rw [encodeString_length, base128_length_eq_max_clog, ← Nat.add_max_add_left]
  · rw [encodeString_length, base128_length_eq_of_bounds hm hlow hhigh]
  · rw [encodeString_length, hzero]
    rfl

/-- Equal strings over one alphabet: the seed symbols are equal, and DEC of the string has one answer (R103). -/
theorem encodeString_inj {cfg : Config} {num num' : Num64} {a b : Index7}
    (h : encodeString cfg num a = encodeString cfg num' b) : a = b ∧ num = num' := by
  have hbuilt : MapBuilt cfg (buildEntries cfg [] (List.range Config.radix)) := mapBuilt_buildEntries cfg
  have hnum := decodeString_encodeString hbuilt num a
  rw [h, decodeString_encodeString hbuilt] at hnum
  obtain ⟨hseedSym, -⟩ := List.cons.inj h
  exact ⟨alphaRead_injective cfg hseedSym, (Except.ok.inj hnum).symm⟩

theorem eq_of_seedLow_eq {a b : SeedField} (ha : a.toNat < 128) (hb : b.toNat < 128) (h : seedLow a = seedLow b) :
    a = b := by
  have hmod := congrArg BitVec.toNat h
  rw [seedLow_toNat, seedLow_toNat, Nat.mod_eq_of_lt ha, Nat.mod_eq_of_lt hb] at hmod
  exact BitVec.eq_of_toNat_eq hmod

/-- With a valid seed the one string of ENCS is the string of `NUM_IN` under it. -/
theorem encodeString_of_encs_delivered {s t : State} {seed : SeedField} {str : List SymCode} (hseed : seed.toNat < 128)
    (h : exec (.encs seed) s = .next t) (hstr : t.responses = s.responses ++ [.strings [str]]) :
    encodeString s.cfg s.cmd.numIn (seedLow seed) = str := by
  have hresponse := execResponse_eq_of_delivered h hstr
  rw [execResponse, encsResponse_of_lt _ _ hseed] at hresponse
  simpa using hresponse

/-- Settles O40: the string names its seed by its first symbol and its number by the round trip. -/
theorem encsStringsNameTheirSeedAndNumber : Obligations.EncsStringsNameTheirSeedAndNumber := by
  intro s s' t t' a b str hcfg ha hb hexec hexec' hstr hstr'
  have hstring := encodeString_of_encs_delivered ha hexec hstr
  have hstring' := encodeString_of_encs_delivered hb hexec' hstr'
  rw [← hcfg] at hstring'
  obtain ⟨hseed, hnum⟩ := encodeString_inj (hstring.trans hstring'.symm)
  exact ⟨eq_of_seedLow_eq ha hb hseed, hnum⟩

end Sys2Proof.Machine
end

section
/-! ENCALL (R107, R108): the strings of all 128 seeds. -/

namespace Sys2Proof.Machine

variable (cfg : Config) (num : Num64)

theorem encodeAll_length : (encodeAll cfg num).length = 128 := by
  rw [encodeAll, List.length_map, List.length_range]

/-- String `j` is the string under seed `j`. -/
theorem encodeAll_getElem? (j : Index7) : (encodeAll cfg num)[j.toNat]? = some (encodeString cfg num j) := by
  rw [encodeAll, List.getElem?_map, List.getElem?_range j.isLt, Option.map_some, BitVec.ofNat_toNat, BitVec.setWidth_eq]

/-- Two strings of ENCALL differ in their seed symbols. -/
theorem encodeAll_nodup : (encodeAll cfg num).Nodup := by
  refine List.nodup_range.map_on fun i hi j hj hstring => ?_
  obtain ⟨hseed, -⟩ := encodeString_inj hstring
  have htoNat := congrArg BitVec.toNat hseed
  rwa [toNat_ofNat_of_lt (List.mem_range.mp hi), toNat_ofNat_of_lt (List.mem_range.mp hj)] at htoNat

variable {cfg num}

/-- Every string of ENCALL has one symbol for the seed and one for each digit. -/
theorem length_of_mem_encodeAll {str : List SymCode} (h : str ∈ encodeAll cfg num) :
    str.length = 1 + (base128 num.toNat).length := by
  obtain ⟨j, -, rfl⟩ := List.mem_map.mp h
  exact encodeString_length cfg num _

end Sys2Proof.Machine

namespace Sys2Proof.Machine

/-- Settles O44: distinct by the seed symbols, of one length by the number's digits. -/
theorem encallAnswersEverySeedInOrder : Obligations.EncallAnswersEverySeedInOrder := by
  intro s
  refine ⟨encodeAll s.cfg s.cmd.numIn, exec_eq .encall s, encodeAll_length _ _, fun j => ?_, encodeAll_nodup _ _,
    fun a ha b hb => (length_of_mem_encodeAll ha).trans (length_of_mem_encodeAll hb).symm⟩
  rw [encodeAll_getElem?, encodeString_eq]

/-- Settles O45: string `j` is the one ENCS answers under `j`, and DEC undoes it. -/
theorem encallStringsAreEncsStringsAndDecode : Obligations.EncallStringsAreEncsStringsAndDecode := by
  intro s hinv hready
  obtain ⟨t, ht, hexec⟩ := exec_delivers (i := .encall) (s := s) rfl rfl
  refine ⟨t, encodeAll s.cfg s.cmd.numIn, hexec, ht, encodeAll_length _ _, fun j => ?_⟩
  obtain ⟨e, he, hencs⟩ := exec_delivers (i := .encs (seedField j)) rfl (encsResponse_seedField s.cfg s.cmd.numIn j)
  exact ⟨encodeString s.cfg s.cmd.numIn j, encodeAll_getElem? _ _ j, ⟨e, hencs, he⟩,
    exec_dec_delivers_value (hinv.built hready) rfl⟩

end Sys2Proof.Machine
end

section
/-! DEC (R120 to R127): the answer of the command and of the symbol loop, one equation per case, then the outcomes. -/

namespace Sys2Proof.Machine

/-- The whole next state of DEC, from its response. -/
theorem exec_dec_of_response {s : State} {r : Response} (h : execResponse .dec s = r) :
    exec .dec s = .next { s with responses := s.responses ++ [r], cmdValid := false } := by
  rw [exec_eq, h, execSource, State.respond]

theorem execResponse_dec_eq_value_iff (s : State) (v : Num64) :
    execResponse .dec s = .value v ↔ decodeString s.rmap s.cmd.symIn = .ok v := by
  rw [execResponse]
  cases decodeString s.rmap s.cmd.symIn <;> simp

theorem execResponse_dec_eq_error_iff (s : State) (e : CodecError) :
    execResponse .dec s = .error e ↔ decodeString s.rmap s.cmd.symIn = .error e := by
  rw [execResponse]
  cases decodeString s.rmap s.cmd.symIn <;> simp

theorem execResponse_dec_congr {s s' : State}
    (h : decodeString s.rmap s.cmd.symIn = decodeString s'.rmap s'.cmd.symIn) : execResponse .dec s = execResponse .dec s' := by
  rw [execResponse, h, execResponse]

theorem exec_dec_of_ok {s : State} {v : Num64} (h : decodeString s.rmap s.cmd.symIn = .ok v) :
    exec .dec s = .next { s with responses := s.responses ++ [.value v], cmdValid := false } :=
  exec_dec_of_response ((execResponse_dec_eq_value_iff s v).mpr h)

theorem exec_dec_of_error {s : State} {e : CodecError} (h : decodeString s.rmap s.cmd.symIn = .error e) :
    exec .dec s = .next { s with responses := s.responses ++ [.error e], cmdValid := false } :=
  exec_dec_of_response ((execResponse_dec_eq_error_iff s e).mpr h)

section

variable {m : Rmap} {sd sym : SymCode} {seed i : Index7} {acc t : Num64} {digits rest : List SymCode}

/-- R122: the seed symbol comes before every digit symbol. -/
theorem decodeString_of_seed_absent (hne : digits ≠ []) (hseed : rmapLookup m sd = none) :
    decodeString m (sd :: digits) = .error (.unknownSymbol sd) := by
  rw [decodeString_cons m sd hne, hseed]

theorem decodeString_of_seed_found (hne : digits ≠ []) (hseed : rmapLookup m sd = some seed) :
    decodeString m (sd :: digits) = decodeLoop m seed 0#64 digits := by
  rw [decodeString_cons m sd hne, hseed]

theorem decodeLoop_cons_absent (hsym : rmapLookup m sym = none) :
    decodeLoop m seed acc (sym :: rest) = .error (.unknownSymbol sym) := by
  simp only [decodeLoop, indexOf, hsym]

theorem decodeLoop_cons_overflow (hsym : rmapLookup m sym = some i)
    (hover : 2 ^ 64 ≤ acc.toNat * 128 + (unscr i seed).toNat) :
    decodeLoop m seed acc (sym :: rest) = .error .accOverflow := by
  simp only [decodeLoop, indexOf, hsym, (accStep_eq_none_iff acc (unscr i seed)).mpr hover]

theorem decodeLoop_cons_found (hsym : rmapLookup m sym = some i) (hacc : accStep acc (unscr i seed) = some t) :
    decodeLoop m seed acc (sym :: rest) = decodeLoop m seed t rest := by
  simp only [decodeLoop, indexOf, hsym, hacc]

/-- The loop from the accumulator 0 over found symbols with a 64-bit value: it reaches what follows with that value. -/
theorem decodeLoop_zero_append {before : List SymCode} {is : List Index7} (rest : List SymCode)
    (hfound : before.map (rmapLookup m) = is.map some) (hfits : digitsValue (is.map (fun i => unscr i seed)) < 2 ^ 64) :
    ∃ v : Num64, v.toNat = digitsValue (is.map (fun i => unscr i seed))
      ∧ decodeLoop m seed 0#64 (before ++ rest) = decodeLoop m seed v rest := by
  simpa using decodeLoop_append m seed before rest is 0#64 hfound (by simpa using hfits)

end

/-- Settles O47: the seed symbol is looked up before any digit symbol. -/
theorem decRaisesUnknownSymbolOnTheSeedSymbol : Obligations.DecRaisesUnknownSymbolOnTheSeedSymbol := by
  intro s sd digits hsym hne hseed
  refine exec_dec_of_error ?_
  rw [hsym, decodeString_of_seed_absent hne hseed]

/-- TooShort is decided on the count alone (R121): with two symbols or more the loop ends in another way. -/
theorem decodeString_eq_tooShort_iff (m : Rmap) (str : List SymCode) :
    decodeString m str = .error .tooShort ↔ str.length < 2 := by
  match str with
  | [] | [_] => simp [decodeString]
  | sd :: d :: ds =>
    have hlong : ¬ (sd :: d :: ds).length < 2 := by simp
    rw [iff_false_right hlong]
    cases hseed : rmapLookup m sd with
    | none => simp [decodeString_of_seed_absent (List.cons_ne_nil d ds) hseed]
    | some seed =>
      rw [decodeString_of_seed_found (List.cons_ne_nil d ds) hseed]
      rcases decodeLoop_cases m seed (d :: ds) 0#64 with ⟨v, hv, -⟩ | ⟨c, hc, -, -⟩ | hover
      · simp [hv]
      · simp [hc]
      · simp [hover]

/-- Settles O46, in both directions by the count of symbols. -/
theorem decRaisesTooShortExactlyBelowTwoSymbols : Obligations.DecRaisesTooShortExactlyBelowTwoSymbols := by
  refine ⟨fun s hshort => exec_dec_of_error ((decodeString_eq_tooShort_iff _ _).mpr hshort), fun s t hexec htooShort => ?_⟩
  have hresponse := execResponse_eq_of_delivered hexec htooShort
  exact (decodeString_eq_tooShort_iff _ _).mp ((execResponse_dec_eq_error_iff s _).mp hresponse)

/-- Settles O48: the symbols before are accumulated without an error, and the lookup comes before the accumulation. -/
theorem decRaisesUnknownSymbolOnTheFirstAbsentDigit : Obligations.DecRaisesUnknownSymbolOnTheFirstAbsentDigit := by
  intro s sd sym before after seed is hsym hseed hfound hfits habsent
  obtain ⟨v, -, hloop⟩ := decodeLoop_zero_append (sym :: after) hfound hfits
  refine exec_dec_of_error ?_
  rw [hsym, decodeString_of_seed_found (by simp) hseed, hloop, decodeLoop_cons_absent habsent]

/-- One digit more multiplies the value by 128 and adds the digit (R77). -/
theorem digitsValue_concat (ds : List Index7) (d : Index7) : digitsValue (ds ++ [d]) = digitsValue ds * 128 + d.toNat := by
  rw [digitsValue_append, digitsValue_singleton, List.length_singleton, pow_one]

/-- Settles O49: the loop reaches the position with the exact value before it, and that step does not fit. -/
theorem decRaisesAccOverflowAtTheFirstExcess : Obligations.DecRaisesAccOverflowAtTheFirstExcess := by
  intro s sd sym before after seed i is hsym hseed hfound hi hfits hover
  obtain ⟨v, hv, hloop⟩ := decodeLoop_zero_append (sym :: after) hfound hfits
  rw [List.map_append, List.map_singleton, digitsValue_concat, ← hv] at hover
  refine exec_dec_of_error ?_
  rw [hsym, decodeString_of_seed_found (by simp) hseed, hloop, decodeLoop_cons_overflow hi hover]

/-- Settles O50: the loop ends with the exact value. -/
theorem decReturnsTheValueOfTheDigits : Obligations.DecReturnsTheValueOfTheDigits := by
  intro s sd digits seed is hsym hne hseed hfound hfits
  obtain ⟨v, hv, hloop⟩ := decodeLoop_zero_append [] hfound hfits
  refine ⟨v, hv, exec_dec_of_ok ?_⟩
  rw [hsym, decodeString_of_seed_found hne hseed, ← List.append_nil digits, hloop, decodeLoop]

/-- An overflow needs enough symbols: `k` digits after `acc` give a value below `(acc + 1) * 128^k`. -/
theorem lt_of_decodeLoop_accOverflow {m : Rmap} {seed : Index7} {syms : List SymCode} {acc : Num64}
    (h : decodeLoop m seed acc syms = .error .accOverflow) : 2 ^ 64 < (acc.toNat + 1) * 128 ^ syms.length := by
  induction syms generalizing acc with
  | nil => cases h
  | cons sym syms ih =>
    cases hsym : rmapLookup m sym with
    | none =>
      rw [decodeLoop_cons_absent hsym] at h
      cases h
    | some i =>
      have hdigit : (unscr i seed).toNat < 128 := (unscr i seed).isLt
      have hpow : (acc.toNat + 1) * 128 ^ (sym :: syms).length = (acc.toNat + 1) * 128 * 128 ^ syms.length := by
        rw [List.length_cons, pow_succ', Nat.mul_assoc]
      rw [hpow]
      cases hacc : accStep acc (unscr i seed) with
      | none =>
        have hover := (accStep_eq_none_iff acc (unscr i seed)).mp hacc
        calc 2 ^ 64 < (acc.toNat + 1) * 128 := by omega
          _ ≤ (acc.toNat + 1) * 128 * 128 ^ syms.length := Nat.le_mul_of_pos_right _ (by positivity)
      | some t =>
        have ht := (accStep_eq_some_iff acc (unscr i seed) t).mp hacc
        rw [decodeLoop_cons_found hsym hacc] at h
        calc 2 ^ 64 < (t.toNat + 1) * 128 ^ syms.length := ih h
          _ ≤ (acc.toNat + 1) * 128 * 128 ^ syms.length := Nat.mul_le_mul_right _ (by omega)

/-- From the accumulator 0 nine digit symbols stand for at most `128^9 - 1 = 2^63 - 1`. -/
theorem length_of_decodeLoop_accOverflow {m : Rmap} {seed : Index7} {syms : List SymCode}
    (h : decodeLoop m seed 0#64 syms = .error .accOverflow) : 10 ≤ syms.length := by
  by_contra hshort
  have hle : 128 ^ syms.length ≤ 128 ^ 9 := Nat.pow_le_pow_right (by decide) (by omega)
  have hlt := lt_of_decodeLoop_accOverflow h
  rw [BitVec.toNat_zero, Nat.zero_add, Nat.one_mul] at hlt
  omega

/-- Settles O51: the count, then the seed symbol, then how the symbol loop can end. -/
theorem decEndsInOneOfFourOutcomes : Obligations.DecEndsInOneOfFourOutcomes := by
  intro s
  refine ⟨execResponse .dec s, exec_dec_of_response rfl, ?_⟩
  by_cases hshort : s.cmd.symIn.length < 2
  · exact .inr (.inl ⟨(execResponse_dec_eq_error_iff s _).mpr ((decodeString_eq_tooShort_iff _ _).mpr hshort), hshort⟩)
  · have hlong : 2 ≤ s.cmd.symIn.length := Nat.not_lt.mp hshort
    obtain ⟨sd, digits, hsym⟩ := List.exists_cons_of_length_pos (Nat.zero_lt_of_lt hlong)
    have hne : digits ≠ [] := by
      rintro rfl
      simp [hsym] at hlong
    simp only [execResponse_dec_eq_value_iff, execResponse_dec_eq_error_iff]
    rw [hsym] at hlong ⊢
    cases hseed : rmapLookup s.rmap sd with
    | none => exact .inr (.inr (.inl ⟨sd, decodeString_of_seed_absent hne hseed, hlong, List.mem_cons_self, hseed⟩))
    | some seed =>
      rw [decodeString_of_seed_found hne hseed]
      rcases decodeLoop_cases s.rmap seed digits 0#64 with ⟨v, hv, hall⟩ | ⟨c, hc, hmem, hnone⟩ | hover
      · exact .inl ⟨v, hv, hlong, List.forall_mem_cons.mpr ⟨by simp [hseed], hall⟩⟩
      · exact .inr (.inr (.inl ⟨c, hc, hlong, List.mem_cons_of_mem _ hmem, hnone⟩))
      · exact .inr (.inr (.inr ⟨hover, Nat.succ_le_succ (length_of_decodeLoop_accOverflow hover)⟩))

/-- A symbol equal to the seed symbol is the digit 0, which leaves the accumulator 0 as it is. -/
theorem decodeLoop_replicate_seed {m : Rmap} {sd : SymCode} {seed : Index7} (hseed : rmapLookup m sd = some seed) (k : Nat)
    (rest : List SymCode) : decodeLoop m seed 0#64 (List.replicate k sd ++ rest) = decodeLoop m seed 0#64 rest := by
  have hzero : accStep 0#64 (unscr seed seed) = some 0#64 := by
    rw [unscr_eq_sub, BitVec.sub_self]
    rfl
  induction k with
  | zero => rfl
  | succ k ih => rw [List.replicate_succ, List.cons_append, decodeLoop_cons_found hseed hzero, ih]

/-- Settles O52: both strings leave the loop the same work. -/
theorem decIgnoresLeadingZeroDigits : Obligations.DecIgnoresLeadingZeroDigits := by
  intro s sd seed k digits hseed hne
  have hlonger : List.replicate k sd ++ digits ≠ [] := by simp [hne]
  have hsame : decodeString s.rmap (sd :: (List.replicate k sd ++ digits)) = decodeString s.rmap (sd :: digits) := by
    rw [decodeString_of_seed_found hlonger hseed, decodeString_of_seed_found hne hseed, decodeLoop_replicate_seed hseed]
  exact ⟨_, _, _, exec_dec_of_response rfl, exec_dec_of_response (execResponse_dec_congr hsame), rfl, rfl⟩

/-- Settles O53: the loop over one symbol more starts its last step with the value of the string before. -/
theorem decOfOneMoreSymbolShiftsTheValue : Obligations.DecOfOneMoreSymbolShiftsTheValue := by
  intro s sd sym digits seed i v hsym hne hseed hi hexec
  have hvalue := (execResponse_dec_eq_value_iff s v).mp (execResponse_eq_of_delivered hexec rfl)
  rw [hsym, decodeString_of_seed_found hne hseed] at hvalue
  have hmore : decodeString s.rmap (s.cmd.symIn ++ [sym]) = decodeLoop s.rmap seed v [sym] := by
    rw [hsym, List.cons_append, decodeString_of_seed_found (by simp) hseed, decodeLoop_append_ok _ _ _ _ hvalue]
  by_cases hfits : v.toNat * 128 + (unscr i seed).toNat < 2 ^ 64
  · obtain ⟨w, hw⟩ : ∃ w : Num64, w.toNat = v.toNat * 128 + (unscr i seed).toNat := ⟨_, toNat_ofNat_of_lt hfits⟩
    rw [decodeLoop_cons_found hi ((accStep_eq_some_iff _ _ w).mpr hw), decodeLoop] at hmore
    exact ⟨.value w, _, exec_dec_of_ok hmore, rfl, fun _ => ⟨w, rfl, hw⟩, fun hover => absurd hfits (Nat.not_lt.mpr hover)⟩
  · rw [decodeLoop_cons_overflow hi (Nat.not_lt.mp hfits)] at hmore
    exact ⟨.error .accOverflow, _, exec_dec_of_error hmore, rfl, fun h => absurd h hfits, fun _ => rfl⟩

end Sys2Proof.Machine
end

section
/-! The recorded faults (R124, R178, U1; log entry 4). -/

namespace Sys2Proof.Machine

theorem Response.fault?_eq_none {r : Response} (h : r ≠ .error .accOverflow) : r.fault? = none := by
  cases r with
  | strings out => rfl
  | value v => rfl
  | error e =>
    cases e with
    | accOverflow => exact absurd rfl h
    | invalidSeed | tooShort | unknownSymbol esym | illegalCmd => rfl

/-- One response more records its own fault, if it has one. -/
theorem recordedFaults_of_delivered {s t : State} {r : Response} (h : t.responses = s.responses ++ [r]) :
    t.recordedFaults = s.recordedFaults ++ r.fault?.toList := by
  rw [State.recordedFaults, h, List.filterMap_append, State.recordedFaults]
  cases hfault : r.fault? <;> simp [hfault]

/-- No other command lists the status ACC_OVERFLOW (R145). -/
theorem eq_dec_of_execResponse_accOverflow {i : Instr} {s : State} (h : execResponse i s = .error .accOverflow) :
    i = .dec := by
  have hlisted := execResponse_status_mem i s
  rw [h] at hlisted
  cases i with
  | dec => rfl
  | encs _ | enc | encall => simp [Response.status, CodecError.status, statusesOf] at hlisted

/-- Settles O54: the one response delivered is ACC_OVERFLOW, which only DEC answers, or it records nothing. -/
theorem onlyDecodeOverflowRecordsAFault : Obligations.OnlyDecodeOverflowRecordsAFault := by
  intro i s t hexec
  have hdelivered : t.responses = s.responses ++ [execResponse i s] := by simp [exec_next hexec]
  have hfaults := recordedFaults_of_delivered hdelivered
  by_cases hover : execResponse i s = .error .accOverflow
  · rw [hover] at hdelivered hfaults
    exact .inl ⟨hdelivered, eq_dec_of_execResponse_accOverflow hover, hfaults⟩
  · rw [Response.fault?_eq_none hover, Option.toList_none, List.append_nil] at hfaults
    exact .inr ⟨fun hr => hover (execResponse_eq_of_delivered hexec hr), hfaults⟩

end Sys2Proof.Machine
end

section
/-! Errors (R150): the command that ends in one leaves only its response. -/

namespace Sys2Proof.Machine

/-- A command that ends in an error has taken no draw: ENC, the only one that takes one, always answers a string (R105). -/
theorem execSource_eq_self_of_error {i : Instr} {s : State} {e : CodecError} (h : execResponse i s = .error e) :
    execSource i s = s := by
  cases i with
  | enc => simp [execResponse, encsResponse_seedField] at h
  | encs | encall | dec => rfl

/-- Settles O29: the response delivered is the command's own, and being an error it comes without a draw. -/
theorem errorsLeaveNothingBehind : Obligations.ErrorsLeaveNothingBehind := by
  intro i s t e hexec hdelivered
  have herror : execResponse i s = .error e := execResponse_eq_of_delivered hexec hdelivered
  rw [exec_next hexec, herror, execSource_eq_self_of_error herror, State.respond]

end Sys2Proof.Machine
end

section
/-! Progress (R148, R150, R160): the block always answers a next state, and a waiting command its response. -/

namespace Sys2Proof.Machine

/-- A move of the block answers a next state: reset, BUILD, the answer to the command at the port, or nothing. -/
theorem exists_codecMove_eq_next (s : State) : ∃ t, codecMove s = .next t := by
  cases hreset : s.resetIn with
  | true => exact ⟨_, codecMove_reset hreset⟩
  | false =>
    cases hready : s.ready with
    | false => exact ⟨_, codecMove_build hreset hready⟩
    | true =>
      cases hvalid : s.cmdValid with
      | false => exact ⟨_, codecMove_idle hreset hready hvalid⟩
      | true =>
        cases hdecode : decode s.cmd.header with
        | error e => exact ⟨_, codecMove_error hreset hready hvalid hdecode⟩
        | ok i => exact ⟨_, (codecMove_ok hreset hready hvalid hdecode).trans (exec_eq i s)⟩

/-- Settles O24, by the agent that has the turn. -/
theorem everyStepAnswersANextState : Obligations.EveryStepAnswersANextState := by
  intro s
  cases hscript : s.script with
  | nil =>
    rw [step_nil hscript]
    exact exists_codecMove_eq_next s
  | cons a rest =>
    cases a with
    | present c =>
      cases hvalid : s.cmdValid with
      | false => exact ⟨_, step_present hscript hvalid⟩
      | true =>
        rw [step_present_busy hscript hvalid]
        exact exists_codecMove_eq_next s
    | driveSeed r => exact ⟨_, step_driveSeed hscript⟩
    | assertReset => exact ⟨_, step_assertReset hscript⟩
    | releaseReset => exact ⟨_, step_releaseReset hscript⟩
    | wait =>
      rw [step_wait hscript]
      exact exists_codecMove_eq_next _

/-- In service one step delivers the one response to the command at the port, legal or not (R59, R160). -/
theorem Serving.step_delivers {s : State} (h : Serving s) :
    ∃ t r, step s = .next t ∧ t.responses = s.responses ++ [r] ∧ t.cmdValid = false := by
  cases hdecode : decode s.cmd.header with
  | error e => exact ⟨_, .error .illegalCmd, h.step_error hdecode, rfl, rfl⟩
  | ok i => exact ⟨_, execResponse i s, (h.step_ok hdecode).trans (exec_eq i s), by simp, State.respond_cmdValid _ _⟩

/-- Settles O32: with `READY` = 1 the next step serves the command; with `READY` = 0 that step is BUILD, and the one after it
serves the command held. -/
theorem waitingCommandIsServed : Obligations.WaitingCommandIsServed := by
  intro s hscript hreset hvalid
  cases hready : s.ready with
  | true =>
    obtain ⟨t, r, hstep, hresponses, hfree⟩ := Serving.step_delivers ⟨hscript, hreset, hready, hvalid⟩
    exact ⟨1, by decide, t, r, run_next hstep, hresponses, hfree⟩
  | false =>
    have hbuild : step s = .next s.build := (step_nil hscript).trans (codecMove_build hreset hready)
    obtain ⟨t, r, hstep, hresponses, hfree⟩ := (serving_build hscript hreset hvalid).step_delivers
    rw [State.build_responses] at hresponses
    exact ⟨2, Nat.le_refl 2, t, r, (run_next hbuild).trans (run_next hstep), hresponses, hfree⟩

end Sys2Proof.Machine
end

section
/-! The reset sequence (R170, R171): no response under reset, then release and BUILD, which make the map of R11 again. -/

namespace Sys2Proof.Machine

/-- While reset is asserted no agent's turn delivers a response: the block's own move only resets it (R170). -/
theorem step_responses_of_resetIn {s t : State} (hreset : s.resetIn = true) (hstep : step s = .next t) :
    t.responses = s.responses := by
  rcases step_cases hstep with ⟨c, rest, -, -, rfl⟩ | ⟨r, rest, -, rfl⟩ | ⟨rest, -, rfl⟩ | ⟨rest, -, rfl⟩
    | ⟨script, -, hmove⟩
  · rfl
  · rfl
  · rfl
  · rfl
  · rw [codecMove_reset (s := { s with script := script }) hreset] at hmove
    cases hmove
    rfl

/-- Items 1 to 3 of R170 for a block that reset has cleared: the release writes only its line, and BUILD follows from the empty
map. The map is given by its two properties, which determine it (log entry 11). -/
theorem exists_step_releaseReset_then_build {s : State} (hscript : s.script = [.releaseReset]) (hready : s.ready = false)
    (hempty : s.rmap = []) :
    ∃ m, MapBuilt s.cfg m ∧ Rmap.wf m
      ∧ step s = .next { s with script := [], resetIn := false }
      ∧ step { s with script := [], resetIn := false }
          = .next { s with script := [], resetIn := false, rmap := m, ready := true } := by
  obtain ⟨m, hbuild, -, -, hfound, -, habsent, hcanonical⟩ :=
    buildMakesTheReverseMap { s with script := [], resetIn := false } rfl hready hempty
  exact ⟨m, ⟨hfound, habsent⟩, hcanonical, step_releaseReset hscript, hbuild rfl⟩

/-- In service the reverse map is the only one that BUILD can leave: R171's "rebuilt to the same contents". -/
theorem CodecInv.rmap_eq_of_mapBuilt {s : State} (h : CodecInv s) (hready : s.ready = true) {m : Rmap}
    (hbuilt : MapBuilt s.cfg m) (hcanonical : Rmap.wf m) : m = s.rmap :=
  canonicalMapsWithEqualLookupsAreEqual _ _ hcanonical h.canonical (hbuilt.lookup_eq (h.built hready))

/-- Settles O18: the block's move under reset clears the map and `READY`; the release and BUILD follow from there. -/
theorem resetSequenceRunsBuild : Obligations.ResetSequenceRunsBuild := by
  intro s hreset
  refine ⟨fun t => step_responses_of_resetIn hreset, fun hscript => ?_⟩
  have hclear : step s = .next (State.applyReset { s with script := [.releaseReset] }) :=
    (step_wait hscript).trans (codecMove_reset hreset)
  obtain ⟨m, hbuilt, -, hrelease, hbuild⟩ :=
    exists_step_releaseReset_then_build (s := State.applyReset { s with script := [.releaseReset] }) rfl rfl rfl
  exact ⟨_, _, _, hclear, hrelease, hbuild, rfl, rfl, fun _ => rfl, rfl, rfl, hbuilt, rfl, rfl⟩

/-- Settles O19: asserting reset clears the map, `READY` and the accepted command; the release and BUILD then bring back the map
and `READY` as they were. -/
theorem resetAbandonsTheCommandAndRebuilds : Obligations.ResetAbandonsTheCommandAndRebuilds := by
  intro s hinv hready _ hscript
  obtain ⟨m, hbuilt, hcanonical, hrelease, hbuild⟩ := exists_step_releaseReset_then_build
    (s := { State.applyReset { s with script := [.releaseReset] } with resetIn := true }) rfl rfl rfl
  refine ⟨_, _, _, step_assertReset hscript, hrelease, hbuild, ?_⟩
  have hsame : m = s.rmap := hinv.rmap_eq_of_mapBuilt hready hbuilt hcanonical
  have habandoned : (s.cmdValid && !s.ready) = false := by rw [hready, Bool.not_true, Bool.and_false]
  simp only [State.applyReset, habandoned, hsame, ← hready]

end Sys2Proof.Machine
end
